-- ==== Sys2Proof/Word.lean ====
section
/-! DEFINITION. The word types of STEGO-CORE (00_scope.md R8, R9): unsigned bit vectors of a fixed width. -/

namespace Sys2Proof

/-- A register, a command word, a stream index, a coordinate, an MSG index (R8, R20). -/
abbrev Word := BitVec 32

/-- A message byte, a stream byte or one colour channel (R8, R64). -/
abbrev Byte := BitVec 8

/-- A pixel word: R in [23:16], G in [15:8], B in [7:0] (20_memory.md R61). -/
abbrev Pixel := BitVec 24

/-- A register number on the host port (10_state.md R21). -/
abbrev RegNum := BitVec 4

end Sys2Proof
end

