-- ==== Sys2Proof/Syntax.lean ====
section
/-! DEFINITION. The commands of STEGO-CORE, one constructor per row of spec/opcode_table.json (30_encoding.md R91).
A command word carries no operand (R90), so no constructor has an argument. -/

namespace Sys2Proof

inductive Instr where
  | nop
  | encode
  | decode
  | pack
  | unpack
  | embed
  | extract
  | coord
  deriving DecidableEq, Repr

end Sys2Proof
end

