-- ==== Sys2Proof/WellFormed.lean ====
section
/-! DEFINITION. What counts as well formed: a command word (30_encoding.md R91), and the arguments of the
pseudo-operations LOADMSG and LOADGRID (R105). A command itself has no operand (R90), so every `Instr` is well formed. -/

namespace Sys2Proof

/-- Every command is well formed: R90, "The word carries no register field, no immediate and no mode bit". -/
def Instr.wellFormed : Instr → Bool
  | .nop | .encode | .decode | .pack | .unpack | .embed | .extract | .coord => true

/-- The eight legal words of R91, as the rule lists them. -/
def legalWords : List Word :=
  [0x00000000#32, 0x00000001#32, 0x00000002#32, 0x00000004#32,
   0x00000005#32, 0x00000006#32, 0x00000007#32, 0x00000008#32]

/-- R91: a word is legal if and only if ZERO = 0 and OPCODE is one of the eight values. -/
def wordLegal (w : Word) : Bool := legalWords.contains w

/-- LOADMSG's bytes fit the 32-bit MSG_LEN it writes (R105, 10_state.md R26). -/
def loadMsgFits (bytes : List Byte) : Bool := decide (bytes.length < 2 ^ 32)

/-- LOADGRID lists one pixel word per pixel of a w × h grid (R105). -/
def loadGridFits (w h : Word) (pixels : List Pixel) : Bool := pixels.length == w.toNat * h.toNat

end Sys2Proof
end

