-- ==== Sys2Proof/Decode.lean ====
section
/-! DEFINITION. The command decoder (30_encoding.md R90, R91, R92), total and rejecting by name, and the encoder. -/

namespace Sys2Proof

/-- Why a word is no command (R93). The block answers each with IllegalCommand (44_system.md R194). -/
inductive Illegal where
  /-- A bit of the ZERO field [31:4] is set, whatever the OPCODE. -/
  | zeroFieldSet
  /-- ZERO is 0 and OPCODE is 0x3 or 0x9 to 0xF. -/
  | reservedOpcode
  deriving DecidableEq, Repr

/-- Bits [31:4] of a command word (R90). -/
def zeroField (w : Word) : BitVec 28 := w.extractLsb' 4 28

/-- Bits [3:0] of a command word (R90). -/
def opcodeField (w : Word) : BitVec 4 := w.extractLsb' 0 4

/-- The opcode map of R91; 0x3 and 0x9 to 0xF are reserved. -/
def opcodeInstr (op : BitVec 4) : Option Instr :=
  match op.toNat with
  | 0 => some .nop
  | 1 => some .encode
  | 2 => some .decode
  | 4 => some .pack
  | 5 => some .unpack
  | 6 => some .embed
  | 7 => some .extract
  | 8 => some .coord
  | _ => none

/-- Decoding a command word (R92): the ZERO field first, then the opcode. -/
def decode (w : Word) : Except Illegal Instr :=
  if zeroField w = 0#28 then
    match opcodeInstr (opcodeField w) with
    | some i => .ok i
    | none => .error .reservedOpcode
  else .error .zeroFieldSet

/-- The command a table word decodes to. The word is the data of a write to CMD: it has no bytes and no byte order
(20_memory.md R68), so only its width matters; bits from `nbits` on are 0, and a command has 32 bits (R90). -/
def decodeTableWord (nbits w : Nat) : Option Instr :=
  if w % 2 ^ nbits < 2 ^ 32 then
    match decode (BitVec.ofNat 32 (w % 2 ^ nbits)) with
    | .ok i => some i
    | .error _ => none
  else none

/-- The word of each command (R91). -/
def encode : Instr → Word
  | .nop => 0x00000000#32
  | .encode => 0x00000001#32
  | .decode => 0x00000002#32
  | .pack => 0x00000004#32
  | .unpack => 0x00000005#32
  | .embed => 0x00000006#32
  | .extract => 0x00000007#32
  | .coord => 0x00000008#32

end Sys2Proof
end

