-- ==== Sys2Proof/Config.lean ====
section
/-! DEFINITION. The fixed parameters of the block (00_scope.md R8: "none is left open"). There is no free value:
10_state.md R42, "no rule draws a value it does not compute". -/

namespace Sys2Proof

/-- PFXLEN, the pixels the length prefix takes (R8). -/
abbrev Config.prefixLen : Nat := 4

/-- The largest total_length, 2^32 - 1 (R8). -/
abbrev Config.maxTotal : Nat := 4294967295

end Sys2Proof
end

