-- ==== Sys2Proof/Machine/State.lean ====
section
/-! DEFINITION. The state of the system: the registers of 10_state.md R20, the host's two memories (R41, 20_memory.md R60,
R64), and the model's own record of the host (log 1, 4). The reasons a step can stop. State.reset. -/

namespace Sys2Proof.Machine

/-- PHASE, STATUS [3:2] (10_state.md R35). -/
inductive Phase where
  | idle
  | enc
  | decHdr
  | decBody
  deriving DecidableEq, Repr

/-- ERR, STATUS [7:4] (60_exceptions.md R211); codes 4 to 15 are never produced. -/
inductive ErrCode where
  | none
  | capacityExceeded
  | outOfBounds
  | illegalCommand
  deriving DecidableEq, Repr

/-- STATUS (10_state.md R23). BUSY is always (PHASE ≠ 0) and has no home of its own; [31:8] read as 0.
DEDUCED, safe (log 11). -/
structure Status where
  phase : Phase
  done : Bool
  err : ErrCode
  deriving DecidableEq, Repr

/-- A sparse memory of `n`-bit elements: addresses strictly rising, no element equal to `unlisted` (`Memory.wf`). -/
abbrev Memory (n : Nat) := List (Nat × BitVec n)

/-- What every address not listed in a `Memory` reads as. DESIGN CHOICE, unsafe (log 5): the spec gives none
(70_reset_and_hazards.md R242). -/
abbrev unlisted (n : Nat) : BitVec n := 0#n

/-- One host operation (44_system.md R200; the lines of 30_encoding.md R104). -/
inductive HostOp where
  /-- `RD n`, a register read (44_system.md R192). -/
  | rd (n : RegNum)
  /-- `WR n, v`, a register write (R191); a write to CMD starts a command (R193). -/
  | wr (n : RegNum) (v : Word)
  /-- `PIX[x,y] ?`. -/
  | pixRd (x y : Word)
  /-- `PIX[x,y] = v`. -/
  | pixWr (x y : Word) (v : Pixel)
  /-- `MSG[a] ?`. -/
  | msgRd (a : Word)
  /-- `MSG[a] = v`. -/
  | msgWr (a : Word) (v : Byte)
  /-- `RESET` (70_reset_and_hazards.md R240). -/
  | reset
  deriving DecidableEq, Repr

/-- Whose step comes next (44_system.md R200). -/
inductive Turn where
  /-- A step of the host. -/
  | host (op : HostOp)
  /-- A step of the sequencer: `STEP k` of R104 is k of these. -/
  | seq
  /-- `WAIT` of R105: the host reads STATUS until BUSY reads 0. -/
  | wait
  deriving DecidableEq, Repr

/-- What one read of the host returned. -/
inductive Seen where
  | reg (n : RegNum) (v : Word)
  | pix (x y : Word) (v : Pixel)
  | msg (a : Word) (v : Byte)
  deriving DecidableEq, Repr

/-- One access of the block on its PIX or MSG port, with the value moved (20_memory.md R75). -/
inductive Access where
  | pixRead (x y : Word) (v : Pixel)
  | pixWrite (x y : Word) (v : Pixel)
  | msgRead (a : Word) (v : Byte)
  | msgWrite (a : Word) (v : Byte)
  deriving DecidableEq, Repr

/-- The whole system. -/
structure State where
  /-- WIDTH (10_state.md R24). -/
  width : Word
  /-- HEIGHT (R25). -/
  height : Word
  /-- MSG_LEN (R26). -/
  msgLen : Word
  /-- TOTAL (R27). -/
  total : Word
  /-- IDX, the program counter (R28). -/
  idx : Word
  /-- OPA (R29). -/
  opa : Word
  /-- OPB (R30). -/
  opb : Word
  /-- RES (R31). -/
  res : Word
  /-- XPOS (R32). -/
  xpos : Word
  /-- YPOS (R33). -/
  ypos : Word
  /-- STATUS (R23). -/
  status : Status
  /-- PIX (20_memory.md R60), keyed by `pixKey x y`. -/
  pix : Memory 24
  /-- MSG (R64), keyed by the byte index. -/
  msg : Memory 8
  /-- The turns still to come, first first: the model's own field (log 1). -/
  agenda : List Turn
  /-- What the host's reads returned, newest first: the model's own field (log 4). -/
  seen : List Seen
  /-- The block's memory accesses, newest first: the model's own field (log 4). -/
  bus : List Access
  deriving DecidableEq, Repr

/-- Why the machine stops with a fault. Each is safe: no next state is claimed. -/
inductive Fault where
  /-- A request for a pixel outside the grid: 20_memory.md R62, "A model should make a request outside the grid a fault".
  Raised by `pixRead` and `pixWrite`: for the block only in states no run reaches (60_exceptions.md R215), and by a
  host read outside the grid. Safe. -/
  | pixOutsideGrid (x y : Word)
  /-- A busy state in which no sequencer step is enabled (IDX above TOTAL in ENC, above 4 in DEC_HDR, below 4 with
  IDX < TOTAL in DEC_BODY). Raised by `seqTurn`; no run reaches it (42_encoder.md R153, 44_system.md R200). Safe (log 10). -/
  | noStepEnabled
  deriving DecidableEq, Repr

/-- Why a step has no meaning. All are safe: no next state is claimed. -/
inductive Refusal where
  /-- A command with no meaning in the model; no arm of `exec` raises it. -/
  | notModelled (mnemonic : String)
  /-- The host reads or writes PIX while ENCODE runs: 70_reset_and_hazards.md R245 forbids it and R248 gives the breach
  no outcome. Raised by `hostPixRead` and `hostPixWrite`. Safe (log 8). -/
  | pixAccessDuringEncode
  /-- The host writes PIX while DECODE runs (R246, R248). Raised by `hostPixWrite`. Safe (log 8). -/
  | pixWriteDuringDecode
  /-- The host writes MSG while ENCODE runs (R247, R248, 44_system.md R200). Raised by `hostMsgWrite`. Safe (log 8, 9). -/
  | msgWriteDuringEncode
  /-- The host reads or writes MSG while DECODE runs (R247, R248). Raised by `hostMsgRead` and `hostMsgWrite`. Safe (log 8). -/
  | msgAccessDuringDecode
  deriving DecidableEq, Repr

/-- The answer of a step or of a meaning. -/
abbrev Answer := Host.Outcome State Fault Refusal

/-- The machine right after reset (10_state.md R40): every register zero, STATUS 0, nothing running. PIX and MSG have no
reset value (R40, R242): nothing is listed. The host has no turn pending. -/
def State.reset : State where
  width := 0#32
  height := 0#32
  msgLen := 0#32
  total := 0#32
  idx := 0#32
  opa := 0#32
  opb := 0#32
  res := 0#32
  xpos := 0#32
  ypos := 0#32
  status := { phase := .idle, done := false, err := .none }
  pix := []
  msg := []
  agenda := []
  seen := []
  bus := []

end Sys2Proof.Machine
end

