-- ==== Sys2Proof/Machine/Operands.lean ====
section
/-! DEFINITION. The operand and result forms of the commands (30_encoding.md R96 to R100): fixed fields of OPA and OPB,
results extended with zeros to 32 bits, the channels of a pixel word (20_memory.md R61). -/

namespace Sys2Proof.Machine

/-- The byte operand OPB[7:0] (R97); OPB[31:8] is ignored. -/
def byteOperand (s : State) : Byte := s.opb.extractLsb' 0 8

/-- The pixel operand OPA[23:0] (R99); OPA[31:24] is ignored. -/
def pixelOperand (s : State) : Pixel := s.opa.extractLsb' 0 24

/-- The red group of the triple operand, OPA[18:16] (R98). -/
def tripleR (s : State) : BitVec 3 := s.opa.extractLsb' 16 3

/-- The green group of the triple operand, OPA[10:8] (R98). -/
def tripleG (s : State) : BitVec 3 := s.opa.extractLsb' 8 3

/-- The blue group of the triple operand, OPA[1:0] (R98). -/
def tripleB (s : State) : BitVec 2 := s.opa.extractLsb' 0 2

/-- The index operand, all of OPA (R100). -/
def indexOperand (s : State) : Word := s.opa

/-- `zext_32` of a result (00_scope.md R9, 30_encoding.md R96). -/
def zext32 {n : Nat} (v : BitVec n) : Word := v.setWidth 32

/-- The red channel P[23:16] of a pixel word (R61). -/
def red (p : Pixel) : Byte := p.extractLsb' 16 8

/-- The green channel P[15:8] (R61). -/
def green (p : Pixel) : Byte := p.extractLsb' 8 8

/-- The blue channel P[7:0] (R61). -/
def blue (p : Pixel) : Byte := p.extractLsb' 0 8

end Sys2Proof.Machine
end

