-- ==== Sys2Proof/Machine/Flags.lean ====
section
/-! DEFINITION. STATUS, the block's only flags (10_state.md R23): its fields' codes, its word, and the three values a rule
writes into it. -/

namespace Sys2Proof.Machine

/-- PHASE as STATUS [3:2] shows it (10_state.md R35). -/
def Phase.code : Phase → BitVec 2
  | .idle => 0#2
  | .enc => 1#2
  | .decHdr => 2#2
  | .decBody => 3#2

/-- ERR as STATUS [7:4] shows it (60_exceptions.md R211). -/
def ErrCode.code : ErrCode → BitVec 4
  | .none => 0#4
  | .capacityExceeded => 1#4
  | .outOfBounds => 2#4
  | .illegalCommand => 3#4

/-- BUSY, STATUS [0]: 1 if and only if PHASE ≠ 0 (R23). -/
def Status.busy (t : Status) : Bool := t.phase != .idle

/-- STATUS as the port reads it (R23): ERR [7:4], PHASE [3:2], DONE [1], BUSY [0], zeros above. -/
def Status.word (t : Status) : Word :=
  0#24 ++ t.err.code ++ t.phase.code ++ BitVec.ofBool t.done ++ BitVec.ofBool t.busy

/-- `STATUS <- {PHASE = IDLE, BUSY = 0, DONE = 1, ERR = e}`: the end of every command (R23). -/
def Status.ended (e : ErrCode) : Status := { phase := .idle, done := true, err := e }

/-- `STATUS <- {PHASE = p, BUSY = 1, DONE = 0, ERR = 0}`: a start check passed, or DECODE goes on to its body (R23). -/
def Status.running (p : Phase) : Status := { phase := p, done := false, err := .none }

/-- STATUS after reset (10_state.md R40). -/
def Status.cleared : Status := { phase := .idle, done := false, err := .none }

end Sys2Proof.Machine
end

