-- ==== Sys2Proof/Machine/Ops.lean ====
section
/-! DEFINITION. The named operations over the two memories and the registers: reading and writing one element, the grid and
its check, CAP, error entry (`fail`, the one shared exception operation of 60_exceptions.md R218), the end and the start of
a command, the busy gate, the reset event, and the model's own records. -/

namespace Sys2Proof.Machine

/-- The element at address `a`: the listed one, else what an unlisted address reads as. -/
def Memory.read {n : Nat} : Memory n → Nat → BitVec n
  | [], _ => unlisted n
  | (k, v) :: m, a => if a = k then v else Memory.read m a

/-- The cell list of one element: empty if the value is what an unlisted address reads as. -/
def Memory.cell {n : Nat} (a : Nat) (v : BitVec n) : Memory n := if v = unlisted n then [] else [(a, v)]

/-- Point update (20_memory.md R82, R83), keeping the canonical form. -/
def Memory.write {n : Nat} : Memory n → Nat → BitVec n → Memory n
  | [], a, v => Memory.cell a v
  | (k, w) :: m, a, v =>
    if a < k then Memory.cell a v ++ (k, w) :: m
    else if a = k then Memory.cell a v ++ m
    else (k, w) :: Memory.write m a v

/-- The canonical form: addresses strictly rising and below `bound`, no element that an unlisted address would read as. -/
abbrev Memory.wf {n : Nat} (bound : Nat) (m : Memory n) : Prop :=
  m.Pairwise (fun c d => c.1 < d.1) ∧ ∀ c ∈ m, c.1 < bound ∧ c.2 ≠ unlisted n

/-- The address of pixel (x, y) in `State.pix`: one number for each pair, whatever WIDTH is (20_memory.md R60: an address is
a pair of 32-bit integers). DESIGN CHOICE, safe (log 6). -/
def pixKey (x y : Word) : Nat := y.toNat * 2 ^ 32 + x.toNat

/-- The pixel word stored at (x, y), with no check. -/
def pixelAt (s : State) (x y : Word) : Pixel := s.pix.read (pixKey x y)

/-- (x, y) is in the grid (20_memory.md R62). -/
def inGrid (s : State) (x y : Word) : Bool := decide (x.toNat < s.width.toNat) && decide (y.toNat < s.height.toNat)

/-- CAP = WIDTH × HEIGHT, exact (10_state.md R37, 00_scope.md R10). -/
def cap (s : State) : Nat := s.width.toNat * s.height.toNat

/-- The state with the pixel word at (x, y) replaced, with no check. -/
def storePixel (s : State) (x y : Word) (v : Pixel) : State := { s with pix := s.pix.write (pixKey x y) v }

/-- `PixRead(x, y)` (R82), a fault outside the grid (R62). -/
def pixRead (s : State) (x y : Word) : Except Fault Pixel :=
  if inGrid s x y then .ok (pixelAt s x y) else .error (.pixOutsideGrid x y)

/-- `PixWrite(x, y, v)` (R82), a fault outside the grid (R62). -/
def pixWrite (s : State) (x y : Word) (v : Pixel) : Except Fault State :=
  if inGrid s x y then .ok (storePixel s x y v) else .error (.pixOutsideGrid x y)

/-- `MsgRead(a)` (R83); every 32-bit index is admitted (R64). -/
def msgRead (s : State) (a : Word) : Byte := s.msg.read a.toNat

/-- `MsgWrite(a, v)` (R83). -/
def msgWrite (s : State) (a : Word) (v : Byte) : State := { s with msg := s.msg.write a.toNat v }

/-- `STATUS <- t`. -/
def setStatus (t : Status) (s : State) : State := { s with status := t }

/-- `IDX <- v` (10_state.md R28). -/
def setIdx (v : Word) (s : State) : State := { s with idx := v }

/-- `TOTAL <- v` (10_state.md R27). -/
def setTotal (v : Word) (s : State) : State := { s with total := v }

/-- `RES <- v` (10_state.md R31). -/
def setRes (v : Word) (s : State) : State := { s with res := v }

/-- `MSG_LEN <- v` (10_state.md R26). -/
def setMsgLen (v : Word) (s : State) : State := { s with msgLen := v }

/-- `XPOS <- x`, `YPOS <- y` (10_state.md R32, R33). -/
def setPos (x y : Word) (s : State) : State := { s with xpos := x, ypos := y }

/-- Error entry, `fail E` (60_exceptions.md R218): STATUS is written and nothing else; control goes nowhere. -/
def fail (e : ErrCode) (s : State) : State := setStatus (Status.ended e) s

/-- The end of a command without error (10_state.md R23): `STATUS <- {IDLE, DONE = 1, ERR = 0}`. -/
def finish (s : State) : State := setStatus (Status.ended .none) s

/-- A passed start check: TOTAL and IDX written, the phase entered (42_encoder.md R151, 43_decoder.md R171). -/
def start (p : Phase) (total : Word) (s : State) : State :=
  setStatus (Status.running p) (setIdx 0#32 (setTotal total s))

/-- The busy test, first of all checks on a command (44_system.md R195, 60_exceptions.md R217): while BUSY = 1 the write is
ignored and the state stays as it is. -/
def whenIdle (s : State) (k : State → Answer) : Answer := if s.status.busy then .next s else k s

/-- Everything of the reset event (70_reset_and_hazards.md R240): every register as 10_state.md R40 says, PIX and MSG
untouched. The host's own turns and records are no part of the block. -/
def resetEvent (s : State) : State :=
  { State.reset with pix := s.pix, msg := s.msg, agenda := s.agenda, seen := s.seen, bus := s.bus }

/-- The host has received the value of a read. -/
def recordSeen (v : Seen) (s : State) : State := { s with seen := v :: s.seen }

/-- The block has made the accesses `as`, in that order, on its memory ports (20_memory.md R75). -/
def recordBus (as : List Access) (s : State) : State := { s with bus := as.reverse ++ s.bus }

/-- The agenda replaced. -/
def setAgenda (as : List Turn) (s : State) : State := { s with agenda := as }

end Sys2Proof.Machine
end

