-- ==== Sys2Proof/Machine/Addrgen.lean ====
section
/-! DEFINITION. The row-major address generator AG (41_addrgen.md) and its command COORD. -/

namespace Sys2Proof.Machine

/-- coord (R140): column `idx mod width`, row `idx ÷ width`. With width 0, which no rule evaluates (R145), it is whatever
Lean's division gives; every access there is outside the empty grid. DESIGN CHOICE, safe (log 12). -/
def coord (idx width : Word) : Word × Word := (idx % width, idx / width)

/-- COORD (R144): OutOfBounds unless the index is below CAP, else XPOS and YPOS. -/
def execCoord (s : State) : Answer :=
  whenIdle s fun s =>
    if cap s ≤ (indexOperand s).toNat then .next (fail .outOfBounds s)
    else .next (finish (setPos (coord (indexOperand s) s.width).1 (coord (indexOperand s) s.width).2 s))

end Sys2Proof.Machine
end

