-- ==== Sys2Proof/Machine/Bitpack.lean ====
section
/-! DEFINITION. The 3-3-2 bit-packer BP (40_bitpack.md) and its four commands PACK, UNPACK, EMBED, EXTRACT. -/

namespace Sys2Proof.Machine

/-- Pack (R120): the top three, middle three and low two bits of a byte. -/
def pack (b : Byte) : BitVec 3 × BitVec 3 × BitVec 2 :=
  ((b >>> 5).setWidth 3, ((b >>> 2) &&& 0b111#8).setWidth 3, (b &&& 0b11#8).setWidth 2)

/-- PackWord (R121): Pack as a triple word (30_encoding.md R98). -/
def packWord (b : Byte) : Pixel :=
  ((pack b).1.setWidth 24 <<< 16) ||| ((pack b).2.1.setWidth 24 <<< 8) ||| (pack b).2.2.setWidth 24

/-- Unpack (R122); the groups have exactly 3, 3 and 2 bits. -/
def unpack (r g : BitVec 3) (b : BitVec 2) : Byte :=
  (r.setWidth 8 <<< 5) ||| (g.setWidth 8 <<< 2) ||| b.setWidth 8

/-- Embed (R123). -/
def embed (p : Pixel) (b : Byte) : Pixel := (p &&& 0xF8F8FC#24) ||| packWord b

/-- Extract (R124). -/
def extract (p : Pixel) : Byte := unpack (p.extractLsb' 16 3) (p.extractLsb' 8 3) (p.extractLsb' 0 2)

/-- PACK (R130). -/
def execPack (s : State) : Answer :=
  whenIdle s fun s => .next (finish (setRes (zext32 (packWord (byteOperand s))) s))

/-- UNPACK (R131). -/
def execUnpack (s : State) : Answer :=
  whenIdle s fun s => .next (finish (setRes (zext32 (unpack (tripleR s) (tripleG s) (tripleB s))) s))

/-- EMBED (R132): the register copy of a pixel; PIX is not touched. -/
def execEmbed (s : State) : Answer :=
  whenIdle s fun s => .next (finish (setRes (zext32 (embed (pixelOperand s) (byteOperand s))) s))

/-- EXTRACT (R133). -/
def execExtract (s : State) : Answer :=
  whenIdle s fun s => .next (finish (setRes (zext32 (extract (pixelOperand s))) s))

end Sys2Proof.Machine
end

