-- ==== Sys2Proof/Machine/Encoder.lean ====
section
/-! DEFINITION. The encoder (42_encoder.md): ENCODE's start step, which is the command's effect in the host's step, and the
sequencer's processing and finish steps. -/

namespace Sys2Proof.Machine

/-- `total33 = MSG_LEN + 4`, exact (R151, 00_scope.md R10). -/
def total33 (s : State) : Nat := s.msgLen.toNat + Config.prefixLen

/-- total_length exceeds the 32-bit length field (R151). -/
def tooLong (s : State) : Bool := decide (Config.maxTotal < total33 s)

/-- total_length exceeds width × height (R151). -/
def tooBig (s : State) : Bool := decide (cap s < total33 s)

/-- ENCODE's start step (R151): the two conditions are evaluated each on its own and ORed (R162). -/
def execEncode (s : State) : Answer :=
  whenIdle s fun s =>
    if tooLong s || tooBig s then .next (fail .capacityExceeded s)
    else .next (start .enc (BitVec.ofNat 32 (total33 s)) s)

/-- Byte `i` of a 32-bit length, most significant first (30_encoding.md R101). -/
def lengthByte (t : Word) (i : Nat) : Byte := (t >>> (8 * (3 - i))).setWidth 8

/-- The MSG index of stream index `i` (R159). -/
def msgIndex (i : Word) : Word := i - 4#32

/-- StreamByte (R159): a byte of TOTAL for the four prefix pixels, then the message. -/
def streamByte (s : State) (i : Word) : Byte :=
  if i.toNat < Config.prefixLen then lengthByte s.total i.toNat else msgRead s (msgIndex i)

/-- The MSG access that fetching stream byte `i` makes: one from index 4 on, none before (20_memory.md R75). -/
def streamAccess (s : State) (i : Word) : List Access :=
  if i.toNat < Config.prefixLen then [] else [.msgRead (msgIndex i) (msgRead s (msgIndex i))]

/-- ENCODE's processing step (R152): the accesses in the order of 20_memory.md R75. -/
def encProcess (s : State) : Answer :=
  let x := (coord s.idx s.width).1
  let y := (coord s.idx s.width).2
  match pixRead s x y with
  | .error f => .fault f
  | .ok p =>
    match pixWrite s x y (embed p (streamByte s s.idx)) with
    | .error f => .fault f
    | .ok s' =>
      .next (recordBus (streamAccess s s.idx ++ [.pixRead x y p, .pixWrite x y (embed p (streamByte s s.idx))])
        (setIdx (s.idx + 1#32) s'))

/-- ENCODE's finish step (R153). -/
def encFinish (s : State) : Answer := .next (finish s)

/-- The sequencer in phase ENC: exactly one of the two steps is enabled; IDX > TOTAL is unreachable (R153). -/
def encStep (s : State) : Answer :=
  if s.idx.toNat < s.total.toNat then encProcess s
  else if s.idx.toNat = s.total.toNat then encFinish s
  else .fault .noStepEnabled

end Sys2Proof.Machine
end

