-- ==== Sys2Proof/Machine/Decoder.lean ====
section
/-! DEFINITION. The decoder (43_decoder.md): DECODE's start step, which is the command's effect in the host's step, and the
sequencer's header, header-finish, body and body-finish steps. -/

namespace Sys2Proof.Machine

/-- DECODE's start step (R171). -/
def execDecode (s : State) : Answer :=
  whenIdle s fun s =>
    if cap s < Config.prefixLen then .next (fail .outOfBounds s)
    else .next (start .decHdr 0#32 s)

/-- Shift one length byte into TOTAL, most significant first (R172, 30_encoding.md R102). -/
def shiftIn (t : Word) (e : Byte) : Word := (t <<< 8) ||| e.setWidth 32

/-- DECODE's header step (R172). -/
def decHeader (s : State) : Answer :=
  let x := (coord s.idx s.width).1
  let y := (coord s.idx s.width).2
  match pixRead s x y with
  | .error f => .fault f
  | .ok p => .next (recordBus [.pixRead x y p] (setIdx (s.idx + 1#32) (setTotal (shiftIn s.total (extract p)) s)))

/-- DECODE's header-finish step (R173): one check, before any payload pixel is read. -/
def decHeaderFinish (s : State) : Answer :=
  if cap s < s.total.toNat then .next (fail .outOfBounds s)
  else .next (setStatus (Status.running .decBody) s)

/-- DECODE's body step (R174): one MSG byte, as extracted (R178). -/
def decBody (s : State) : Answer :=
  let x := (coord s.idx s.width).1
  let y := (coord s.idx s.width).2
  match pixRead s x y with
  | .error f => .fault f
  | .ok p =>
    .next (recordBus [.pixRead x y p, .msgWrite (msgIndex s.idx) (extract p)]
      (setIdx (s.idx + 1#32) (msgWrite s (msgIndex s.idx) (extract p))))

/-- The message length a finished DECODE reports: `TOTAL - 4`, or 0 for a claimed length below 4 (R175, R177). -/
def decodedLength (t : Word) : Word := if Config.prefixLen ≤ t.toNat then t - 4#32 else 0#32

/-- DECODE's body-finish step (R175). -/
def decBodyFinish (s : State) : Answer := .next (finish (setMsgLen (decodedLength s.total) s))

/-- The sequencer in phase DEC_HDR. -/
def decHdrStep (s : State) : Answer :=
  if s.idx.toNat < Config.prefixLen then decHeader s
  else if s.idx.toNat = Config.prefixLen then decHeaderFinish s
  else .fault .noStepEnabled

/-- The sequencer in phase DEC_BODY: a body step has IDX ≥ 4 (R174, "so `4 ≤ i < TOTAL`"). -/
def decBodyStep (s : State) : Answer :=
  if s.total.toNat ≤ s.idx.toNat then decBodyFinish s
  else if Config.prefixLen ≤ s.idx.toNat then decBody s
  else .fault .noStepEnabled

end Sys2Proof.Machine
end

