-- ==== Sys2Proof/Machine/System.lean ====
section
/-! DEFINITION. NOP and the illegal command word (44_system.md R190, R194). -/

namespace Sys2Proof.Machine

/-- NOP (R190): STATUS only; its use is to clear a stale ERR. -/
def execNop (s : State) : Answer := whenIdle s fun s => .next (finish s)

/-- A word that is no command (R194): IllegalCommand, nothing else changes. -/
def illegalCommand (s : State) : Answer := whenIdle s fun s => .next (fail .illegalCommand s)

end Sys2Proof.Machine
end

