-- ==== Sys2Proof/Machine/Port.lean ====
section
/-! DEFINITION. The two agents' steps (44_system.md R200): the host at the register port (R191, R192) and at its own
memories (20_memory.md R84), the reset event, the sequencer, and the WAIT poll. -/

namespace Sys2Proof.Machine

/-- `RD n` (R192, 10_state.md R21): the value the port returns; CMD and numbers 12 to 15 read 0. -/
def regRead (n : RegNum) (s : State) : Word :=
  match n.toNat with
  | 1 => s.status.word
  | 2 => s.width
  | 3 => s.height
  | 4 => s.msgLen
  | 5 => s.total
  | 6 => s.idx
  | 7 => s.opa
  | 8 => s.opb
  | 9 => s.res
  | 10 => s.xpos
  | 11 => s.ypos
  | _ => 0#32

/-- A word written to CMD (R193): the command it decodes to, or IllegalCommand. The busy test comes first in both
(60_exceptions.md R217). -/
def dispatch (w : Word) (s : State) : Answer :=
  match decode w with
  | .ok i => exec i s
  | .error _ => illegalCommand s

/-- `WR n, v` (R191, 10_state.md R43): a write to a read-only or reserved number is ignored, and so is every write while
BUSY = 1. -/
def regWrite (n : RegNum) (v : Word) (s : State) : Answer :=
  match n.toNat with
  | 0 => dispatch v s
  | 2 => whenIdle s fun s => .next { s with width := v }
  | 3 => whenIdle s fun s => .next { s with height := v }
  | 4 => whenIdle s fun s => .next { s with msgLen := v }
  | 7 => whenIdle s fun s => .next { s with opa := v }
  | 8 => whenIdle s fun s => .next { s with opb := v }
  | _ => .next s

/-- `PIX[x,y] ?` (20_memory.md R84): while idle, and while DECODE runs (R81, 44_system.md R200). -/
def hostPixRead (x y : Word) (s : State) : Answer :=
  match s.status.phase with
  | .enc => .refused .pixAccessDuringEncode
  | .idle | .decHdr | .decBody =>
    match pixRead s x y with
    | .error f => .fault f
    | .ok v => .next (recordSeen (.pix x y v) s)

/-- `PIX[x,y] = v` (R84), while idle. The host may load the image before it writes WIDTH and HEIGHT
(70_reset_and_hazards.md R243, "in any order"), so this write asks for no grid. DEDUCED, safe (log 7). -/
def hostPixWrite (x y : Word) (v : Pixel) (s : State) : Answer :=
  match s.status.phase with
  | .idle => .next (storePixel s x y v)
  | .enc => .refused .pixAccessDuringEncode
  | .decHdr | .decBody => .refused .pixWriteDuringDecode

/-- `MSG[a] ?` (R84): while idle, and while ENCODE runs (R81, 44_system.md R200). -/
def hostMsgRead (a : Word) (s : State) : Answer :=
  match s.status.phase with
  | .idle | .enc => .next (recordSeen (.msg a (msgRead s a)) s)
  | .decHdr | .decBody => .refused .msgAccessDuringDecode

/-- `MSG[a] = v` (R84), while idle. -/
def hostMsgWrite (a : Word) (v : Byte) (s : State) : Answer :=
  match s.status.phase with
  | .idle => .next (msgWrite s a v)
  | .enc => .refused .msgWriteDuringEncode
  | .decHdr | .decBody => .refused .msgAccessDuringDecode

/-- One step of the host (44_system.md R200). -/
def hostStep (op : HostOp) (s : State) : Answer :=
  match op with
  | .rd n => .next (recordSeen (.reg n (regRead n s)) s)
  | .wr n v => regWrite n v s
  | .pixRd x y => hostPixRead x y s
  | .pixWr x y v => hostPixWrite x y v s
  | .msgRd a => hostMsgRead a s
  | .msgWr a v => hostMsgWrite a v s
  | .reset => .next (resetEvent s)

/-- The sequencer's turn (44_system.md R196): the one enabled step of the phase; while idle none is enabled and nothing
happens (70_reset_and_hazards.md R240, "nothing starts by itself"; log 2). -/
def seqTurn (s : State) : Answer :=
  match s.status.phase with
  | .idle => .next s
  | .enc => encStep s
  | .decHdr => decHdrStep s
  | .decBody => decBodyStep s

/-- One poll of WAIT (30_encoding.md R105): the host reads STATUS; while BUSY reads 1 the sequencer has the next turn and
then the host polls again. DESIGN CHOICE, safe (log 3): the alternation stands for the fairness of
70_reset_and_hazards.md R253. -/
def waitPoll (s : State) : Answer :=
  if s.status.busy then
    .next (setAgenda (.seq :: .wait :: s.agenda) (recordSeen (.reg 1#4 (regRead 1#4 s)) s))
  else .next (recordSeen (.reg 1#4 (regRead 1#4 s)) s)

/-- What a turn does, the turn itself already taken off the agenda. -/
def runTurn (t : Turn) (s : State) : Answer :=
  match t with
  | .host op => hostStep op s
  | .seq => seqTurn s
  | .wait => waitPoll s

end Sys2Proof.Machine
end

