-- ==== Sys2Proof/Machine/HostProgram.lean ====
section
/-! DEFINITION. The host's way of writing programs (30_encoding.md R104, R105): register names, mnemonic lines and the
expansions of the pseudo-operations, as turns of the agenda. -/

namespace Sys2Proof.Machine

/-- Register numbers by name (10_state.md R21). -/
def RegName.cmd : RegNum := 0#4
def RegName.status : RegNum := 1#4
def RegName.width : RegNum := 2#4
def RegName.height : RegNum := 3#4
def RegName.msgLen : RegNum := 4#4
def RegName.total : RegNum := 5#4
def RegName.idx : RegNum := 6#4
def RegName.opa : RegNum := 7#4
def RegName.opb : RegNum := 8#4
def RegName.res : RegNum := 9#4
def RegName.xpos : RegNum := 10#4
def RegName.ypos : RegNum := 11#4

/-- A mnemonic line (R104): `WR CMD, <word of R91>`. -/
def commandTurn (i : Instr) : Turn := .host (.wr RegName.cmd (encode i))

/-- `STEP k` (R104): exactly k sequencer steps happen here. -/
def stepTurns (k : Nat) : List Turn := List.replicate k .seq

/-- The byte writes of LOADMSG from index `a` on. -/
def loadBytes : Nat → List Byte → List Turn
  | _, [] => []
  | a, b :: bs => .host (.msgWr (BitVec.ofNat 32 a) b) :: loadBytes (a + 1) bs

/-- `LOADMSG` (R105). -/
def loadMsg (bytes : List Byte) : List Turn :=
  loadBytes 0 bytes ++ [.host (.wr RegName.msgLen (BitVec.ofNat 32 bytes.length))]

/-- The pixel writes of LOADGRID from stream index `i` on, each at `coord(i, w)` over the exact index (41_addrgen.md R140,
00_scope.md R10: a grid may have more than 2^32 pixels). -/
def loadPixels (w : Word) : Nat → List Pixel → List Turn
  | _, [] => []
  | i, p :: ps =>
    .host (.pixWr (BitVec.ofNat 32 (i % w.toNat)) (BitVec.ofNat 32 (i / w.toNat)) p) :: loadPixels w (i + 1) ps

/-- `LOADGRID w, h, p0 …` (R105), the pixels in stream-index order. -/
def loadGrid (w h : Word) (pixels : List Pixel) : List Turn :=
  .host (.wr RegName.width w) :: .host (.wr RegName.height h) :: loadPixels w 0 pixels

/-- `HIDE` (R105): ENCODE then WAIT. -/
def hide : List Turn := [commandTurn .encode, .wait]

/-- `REVEAL` (R105): DECODE then WAIT. -/
def reveal : List Turn := [commandTurn .decode, .wait]

end Sys2Proof.Machine
end

