-- ==== Sys2Proof/Machine/Step.lean ====
section
/-! DEFINITION. One step of the system: the next turn of the agenda; with no turn left, the sequencer's (log 1, 2). -/

namespace Sys2Proof.Machine

/-- One atomic step of one of the two agents (44_system.md R200). -/
def step (s : State) : Host.Outcome State Fault Refusal :=
  match s.agenda with
  | [] => seqTurn s
  | t :: rest => runTurn t (setAgenda rest s)

/-- The word as the host's next operation, a write to CMD: the block fetches no instruction from memory
(20_memory.md R79, "a command is the data of a host write to CMD"). -/
def State.withFetchWord (s : State) (nbits w : Nat) : State :=
  setAgenda (.host (.wr RegName.cmd (BitVec.ofNat 32 (w % 2 ^ nbits))) :: s.agenda) s

end Sys2Proof.Machine
end

