-- ==== Sys2Proof/Safety.lean ====
section
/-! DEFINITION. The terms the claims are stated in: the legal STATUS values, the invariant of the machine, the host's
duties, the encoded stream, and what a command leaves alone. -/

namespace Sys2Proof.Machine

/-- 10_state.md R36: BUSY implies DONE = 0 and ERR = 0; ERR ≠ 0 implies DONE = 1 and PHASE = IDLE. -/
def Status.Legal (t : Status) : Prop :=
  (t.busy = true → t.done = false ∧ t.err = .none) ∧ (t.err ≠ .none → t.done = true ∧ t.phase = .idle)

/-- IDX and TOTAL in each phase (10_state.md R28, 42_encoder.md R151 to R153, 43_decoder.md R171 to R175). -/
def PhaseInv (s : State) : Prop :=
  match s.status.phase with
  | .idle => True
  | .enc => s.total.toNat = s.msgLen.toNat + 4 ∧ s.total.toNat ≤ cap s ∧ s.idx.toNat ≤ s.total.toNat
  | .decHdr => 4 ≤ cap s ∧ s.idx.toNat ≤ 4 ∧ s.total.toNat < 256 ^ s.idx.toNat
  | .decBody => 4 ≤ cap s ∧ s.total.toNat ≤ cap s ∧ 4 ≤ s.idx.toNat ∧ s.idx.toNat ≤ max s.total.toNat 4

/-- The invariant every step keeps. -/
structure Inv (s : State) : Prop where
  /-- PIX is in canonical form, every address a pair of 32-bit integers (20_memory.md R60). -/
  pix : s.pix.wf (2 ^ 64)
  /-- MSG is in canonical form, every address a 32-bit index (R64). -/
  msg : s.msg.wf (2 ^ 32)
  /-- STATUS is one of the values of 10_state.md R36. -/
  status : s.status.Legal
  /-- IDX against TOTAL and CAP. -/
  phase : PhaseInv s
  /-- RES [31:24] is 0 (10_state.md R31). -/
  res : s.res.toNat < 2 ^ 24

/-- The turn is one that 44_system.md R200 admits and the host's duties allow (20_memory.md R84, 70_reset_and_hazards.md
R245 to R247): a PIX read in the grid while no ENCODE runs, a PIX write while idle, a MSG read while no DECODE runs, a MSG
write while idle. The PIX write is admitted outside the grid too: the model's choice, DEDUCED from R243, safe (log 7). -/
def turnAllowed (s : State) : Turn → Prop
  | .host (.pixRd x y) => s.status.phase ≠ .enc ∧ inGrid s x y = true
  | .host (.pixWr _ _ _) => s.status.phase = .idle
  | .host (.msgRd _) => s.status.phase = .idle ∨ s.status.phase = .enc
  | .host (.msgWr _ _) => s.status.phase = .idle
  | .host (.rd _) | .host (.wr _ _) | .host .reset | .seq | .wait => True

/-- The host keeps its duties in the coming step. -/
def hostDutyKept (s : State) : Prop :=
  match s.agenda with
  | [] => True
  | t :: _ => turnAllowed s t

/-- Byte `i` of the EncodedStream of the message that MSG and MSG_LEN hold (30_encoding.md R103): the four bytes of
`MSG_LEN + 4`, most significant first, then the message. -/
def encodedStream (s : State) (i : Nat) : Byte :=
  if i < 4 then BitVec.ofNat 8 ((s.msgLen.toNat + 4) / 256 ^ (3 - i)) else s.msg.read (i - 4)

/-- The pixel word at stream index `i`, at `coord(i, WIDTH)` over the exact index (41_addrgen.md R140). -/
def pixelAtIndex (s : State) (i : Nat) : Pixel :=
  pixelAt s (BitVec.ofNat 32 (i % s.width.toNat)) (BitVec.ofNat 32 (i / s.width.toNat))

/-- The byte the pixel at stream index `i` carries (40_bitpack.md R124). -/
def carried (s : State) (i : Nat) : Byte := extract (pixelAtIndex s i)

/-- The length the four prefix pixels claim (30_encoding.md R102). -/
def claimedLength (s : State) : Nat :=
  (carried s 0).toNat * 2 ^ 24 + (carried s 1).toNat * 2 ^ 16 + (carried s 2).toNat * 2 ^ 8 + (carried s 3).toNat

/-- Every pixel and every message byte reads as before. -/
def SameMemory (s t : State) : Prop :=
  (∀ x y, pixelAt t x y = pixelAt s x y) ∧ ∀ a, msgRead t a = msgRead s a

/-- A turn that may come while ENCODE runs, the host keeping its duties (44_system.md R200, 70_reset_and_hazards.md R244
to R247): a step of the sequencer, a register read, a register write (which is ignored), a MSG read. A reset abandons the
command (R241) and WAIT is a program of its own; neither belongs here. -/
def encodeTurn : Turn → Bool
  | .seq | .host (.rd _) | .host (.wr _ _) | .host (.msgRd _) => true
  | .host (.pixRd _ _) | .host (.pixWr _ _ _) | .host (.msgWr _ _) | .host .reset | .wait => false

/-- A turn that may come while DECODE runs in the grid of `s`: as for ENCODE, but a PIX read in place of a MSG read. -/
def decodeTurn (s : State) : Turn → Bool
  | .seq | .host (.rd _) | .host (.wr _ _) => true
  | .host (.pixRd x y) => inGrid s x y
  | .host (.pixWr _ _ _) | .host (.msgRd _) | .host (.msgWr _ _) | .host .reset | .wait => false

/-- An interleaving of the two agents (R200): the admitted turns in any order, exactly `k` of them steps of the sequencer,
the last of all among them. -/
structure Schedule (admitted : Turn → Bool) (k : Nat) (turns : List Turn) : Prop where
  admitted : ∀ t ∈ turns, admitted t = true
  sequencer : turns.count .seq = k
  last : turns.getLast? = some .seq

/-- `k` steps of the machine, stopping at the first fault or refusal. -/
def steps : Nat → State → Answer
  | 0, s => .next s
  | k + 1, s =>
    match step s with
    | .next t => steps k t
    | .fault f => .fault f
    | .refused r => .refused r

/-- No host turn and no host record is touched. -/
def SameHost (s t : State) : Prop := t.agenda = s.agenda ∧ t.seen = s.seen

end Sys2Proof.Machine
end

