-- ==== Sys2Proof/Certificates/Slice0/Obligations.lean ====
section
/-! DEFINITION. The statements about the model, in the order of OBLIGATIONS.json; each docstring names the rules of spec/
it formalises. -/

open Sys2Proof Sys2Proof.Machine

/-! ### Command words -/

/-- R91 (derived): the eight words of the table, written out, decode to their commands; four other words do not. -/
def Obligations.TableWordsDecode : Prop :=
  decode 0x00000000#32 = .ok .nop ∧ decode 0x00000001#32 = .ok .encode ∧ decode 0x00000002#32 = .ok .decode ∧
  decode 0x00000004#32 = .ok .pack ∧ decode 0x00000005#32 = .ok .unpack ∧ decode 0x00000006#32 = .ok .embed ∧
  decode 0x00000007#32 = .ok .extract ∧ decode 0x00000008#32 = .ok .coord ∧
  decode 0x00000003#32 = .error .reservedOpcode ∧ decode 0x0000000F#32 = .error .reservedOpcode ∧
  decode 0x00000011#32 = .error .zeroFieldSet ∧ decode 0x80000000#32 = .error .zeroFieldSet

/-- R92: decoding and encoding agree on every word and every command; no two commands share a word; a word with a bit of
[31:4] set is illegal. -/
def Obligations.DecodeEncodeAgree : Prop :=
  (∀ (w : Word) (i : Instr), decode w = .ok i ↔ w = encode i) ∧
  (∀ i j : Instr, encode i = encode j → i = j) ∧
  (∀ w : Word, 16 ≤ w.toNat → ∃ e, decode w = .error e)

/-- R91: a word is legal if and only if ZERO = 0 and OPCODE is one of the eight values, and then the word equals the
OPCODE value; which word is which command. -/
def Obligations.LegalWordsExactly : Prop :=
  ∀ w : Word,
    (decode w = .ok .nop ↔ w = 0x00000000#32) ∧ (decode w = .ok .encode ↔ w = 0x00000001#32) ∧
    (decode w = .ok .decode ↔ w = 0x00000002#32) ∧ (decode w = .ok .pack ↔ w = 0x00000004#32) ∧
    (decode w = .ok .unpack ↔ w = 0x00000005#32) ∧ (decode w = .ok .embed ↔ w = 0x00000006#32) ∧
    (decode w = .ok .extract ↔ w = 0x00000007#32) ∧ (decode w = .ok .coord ↔ w = 0x00000008#32) ∧
    ((∃ i, decode w = .ok i) ↔
      zeroField w = 0#28 ∧ (opcodeField w).toNat ∈ [0x0, 0x1, 0x2, 0x4, 0x5, 0x6, 0x7, 0x8]) ∧
    (wordLegal w = true ↔ ∃ i, decode w = .ok i) ∧
    ((∃ i, decode w = .ok i) → w.toNat = (opcodeField w).toNat)

/-! ### The step -/

/-- R193 (derived): a CMD write whose word decodes to `i` makes the step run exactly `exec i`, the turn taken off the
agenda; `withFetchWord` places such a write. -/
def Obligations.StepRunsTheDecodedCommand : Prop :=
  (∀ (s : State) (rest : List Turn) (w : Word) (i : Instr), s.agenda = .host (.wr 0#4 w) :: rest →
    decode w = .ok i → i.wellFormed = true → step s = exec i { s with agenda := rest }) ∧
  (∀ (s : State) (w : Nat) (i : Instr), decodeTableWord 32 w = some i → step (s.withFetchWord 32 w) = exec i s)

/-- R200 (derived; model's convention, log 1 and 2): the next turn of the agenda decides who steps; with no turn left the
sequencer does. -/
def Obligations.AgendaDecidesTheAgent : Prop :=
  ∀ s : State,
    (s.agenda = [] → step s = seqTurn s) ∧
    (∀ rest, s.agenda = .seq :: rest → step s = seqTurn { s with agenda := rest }) ∧
    (∀ op rest, s.agenda = .host op :: rest → step s = hostStep op { s with agenda := rest })

/-- R40 (derived, the values of the registers only): the ten registers and STATUS are zero at reset and the block is
idle, with no step enabled that changes it. -/
def Obligations.ResetRegisters : Prop :=
  State.reset.width = 0 ∧ State.reset.height = 0 ∧ State.reset.msgLen = 0 ∧ State.reset.total = 0 ∧
  State.reset.idx = 0 ∧ State.reset.opa = 0 ∧ State.reset.opb = 0 ∧ State.reset.res = 0 ∧
  State.reset.xpos = 0 ∧ State.reset.ypos = 0 ∧ regRead 1#4 State.reset = 0 ∧ seqTurn State.reset = .next State.reset

/-- R240: the reset event, in any state, zeroes every register, touches no memory, and leaves no sequencer step enabled. -/
def Obligations.ResetEventClearsRegisters : Prop :=
  ∀ (s : State) (rest : List Turn), s.agenda = .host .reset :: rest →
    ∃ t, step s = .next t ∧
      t.width = 0 ∧ t.height = 0 ∧ t.msgLen = 0 ∧ t.total = 0 ∧ t.idx = 0 ∧ t.opa = 0 ∧ t.opb = 0 ∧ t.res = 0 ∧
      t.xpos = 0 ∧ t.ypos = 0 ∧ t.status.phase = .idle ∧ t.status.done = false ∧ t.status.err = .none ∧
      t.status.word = 0 ∧ t.pix = s.pix ∧ t.msg = s.msg ∧ t.bus = s.bus ∧ t.agenda = rest ∧ seqTurn t = .next t

/-! ### Invariants -/

/-- The invariant holds at reset. -/
def Obligations.ResetMeetsTheInvariant : Prop := Inv State.reset

/-- R20, R28, R31, R36, R60, R64 (derived): every step of either agent keeps the invariant: both memories in canonical
form, STATUS legal, IDX and TOTAL within their phase's bounds, RES within 24 bits. -/
def Obligations.EveryStepKeepsTheInvariant : Prop :=
  ∀ s t : State, Inv s → step s = .next t → Inv t

/-- R36: the invariants of STATUS, read through the register port, and the only eight values it can show. -/
def Obligations.StatusShowsOnlyEightValues : Prop :=
  ∀ s : State, Inv s →
    ((regRead 1#4 s).getLsbD 0 = true ↔ (regRead 1#4 s).extractLsb' 2 2 ≠ 0#2) ∧
    ((regRead 1#4 s).getLsbD 0 = true →
      (regRead 1#4 s).getLsbD 1 = false ∧ (regRead 1#4 s).extractLsb' 4 4 = 0#4) ∧
    ((regRead 1#4 s).extractLsb' 4 4 ≠ 0#4 →
      (regRead 1#4 s).getLsbD 1 = true ∧ (regRead 1#4 s).extractLsb' 2 2 = 0#2) ∧
    ((regRead 1#4 s).extractLsb' 4 4).toNat ≤ 3 ∧ (regRead 1#4 s).extractLsb' 8 24 = 0#24 ∧
    regRead 1#4 s ∈ [0x00#32, 0x02#32, 0x12#32, 0x22#32, 0x32#32, 0x05#32, 0x09#32, 0x0D#32]

/-- R157, R181: every pixel access of a processing, header or body step is inside the grid, whose width is at least 1. -/
def Obligations.EveryBlockAccessIsInTheGrid : Prop :=
  ∀ s : State, Inv s →
    (s.status.phase = .enc ∧ s.idx.toNat < s.total.toNat ∨ s.status.phase = .decHdr ∧ s.idx.toNat < 4 ∨
      s.status.phase = .decBody ∧ s.idx.toNat < s.total.toNat) →
    1 ≤ s.width.toNat ∧ (coord s.idx s.width).1.toNat < s.width.toNat ∧
      (coord s.idx s.width).2.toNat < s.height.toNat ∧
      pixRead s (coord s.idx s.width).1 (coord s.idx s.width).2 =
        .ok (pixelAt s (coord s.idx s.width).1 (coord s.idx s.width).2)

/-- R215, R200 (derived): from every state of the invariant the sequencer's turn completes: it neither faults nor is
stuck, in any phase. -/
def Obligations.SequencerNeverStops : Prop :=
  ∀ s : State, Inv s → ∃ t, seqTurn s = .next t

/-- R215, R84, R200, R243 (derived): while the host keeps its duties, every step of either agent completes. That an idle
host's PIX write is admitted outside the grid too, where R84 speaks of "any pixel of the grid" only, is the model's choice
(log 7, deduced from R243). -/
def Obligations.DutifulStepsComplete : Prop :=
  ∀ s : State, Inv s → hostDutyKept s → ∃ t, step s = .next t

/-- R196 (derived): PHASE changes only by the rows of the transition table, each under its condition. -/
def Obligations.PhaseChangesOnlyByTheTable : Prop :=
  ∀ s t : State, Inv s → step s = .next t → t.status.phase ≠ s.status.phase →
    (s.status.phase = .idle ∧ t.status.phase = .enc ∧ s.agenda.head? = some (.host (.wr 0#4 0x00000001#32)) ∧
      s.msgLen.toNat + 4 ≤ 2 ^ 32 - 1 ∧ s.msgLen.toNat + 4 ≤ s.width.toNat * s.height.toNat) ∨
    (s.status.phase = .idle ∧ t.status.phase = .decHdr ∧ s.agenda.head? = some (.host (.wr 0#4 0x00000002#32)) ∧
      4 ≤ s.width.toNat * s.height.toNat) ∨
    (s.status.phase = .enc ∧ t.status.phase = .idle ∧ s.idx = s.total ∧ t.status.err = .none) ∨
    (s.status.phase = .decHdr ∧ t.status.phase = .idle ∧ s.idx.toNat = 4 ∧
      s.width.toNat * s.height.toNat < s.total.toNat ∧ t.status.err = .outOfBounds) ∨
    (s.status.phase = .decHdr ∧ t.status.phase = .decBody ∧ s.idx.toNat = 4 ∧
      s.total.toNat ≤ s.width.toNat * s.height.toNat) ∨
    (s.status.phase = .decBody ∧ t.status.phase = .idle ∧ s.total.toNat ≤ s.idx.toNat ∧ t.status.err = .none) ∨
    (t.status.phase = .idle ∧ s.agenda.head? = some (.host .reset))

/-! ### Commands that end at once -/

/-- R190: NOP writes STATUS (DONE = 1, ERR = 0) and nothing else. -/
def Obligations.NopWritesStatusOnly : Prop :=
  decode 0x00000000#32 = .ok .nop ∧
  ∀ s : State, s.status.busy = false →
    ∃ t, exec .nop s = .next t ∧ t = { s with status := { phase := .idle, done := true, err := .none } } ∧
      t.status.word = 0x00000002#32

/-- R130: PACK writes the triple word of OPB[7:0] to RES and ends without error; nothing else changes. -/
def Obligations.PackWritesTheTripleWord : Prop :=
  decode 0x00000004#32 = .ok .pack ∧
  ∀ s : State, s.status.busy = false →
    exec .pack s = .next { s with
      res := 0#13 ++ s.opb.extractLsb' 5 3 ++ 0#5 ++ s.opb.extractLsb' 2 3 ++ 0#6 ++ s.opb.extractLsb' 0 2
      status := { phase := .idle, done := true, err := .none } }

/-- R131: UNPACK joins OPA[18:16], OPA[10:8] and OPA[1:0] into a byte in RES, and gives what EXTRACT gives. -/
def Obligations.UnpackJoinsTheTriple : Prop :=
  decode 0x00000005#32 = .ok .unpack ∧
  ∀ s : State, s.status.busy = false →
    exec .unpack s = .next { s with
      res := 0#24 ++ s.opa.extractLsb' 16 3 ++ s.opa.extractLsb' 8 3 ++ s.opa.extractLsb' 0 2
      status := { phase := .idle, done := true, err := .none } } ∧
    exec .unpack s = exec .extract s

/-- R132: EMBED replaces the low 3, 3 and 2 bits of the pixel OPA[23:0] by the byte OPB[7:0], into RES. -/
def Obligations.EmbedReplacesTheLowBits : Prop :=
  decode 0x00000006#32 = .ok .embed ∧
  ∀ s : State, s.status.busy = false →
    exec .embed s = .next { s with
      res := 0#8 ++ s.opa.extractLsb' 19 5 ++ s.opb.extractLsb' 5 3 ++ s.opa.extractLsb' 11 5 ++
        s.opb.extractLsb' 2 3 ++ s.opa.extractLsb' 2 6 ++ s.opb.extractLsb' 0 2
      status := { phase := .idle, done := true, err := .none } }

/-- R133: EXTRACT joins the low 3, 3 and 2 bits of the pixel OPA[23:0] into a byte in RES. -/
def Obligations.ExtractJoinsTheLowBits : Prop :=
  decode 0x00000007#32 = .ok .extract ∧
  ∀ s : State, s.status.busy = false →
    exec .extract s = .next { s with
      res := 0#24 ++ s.opa.extractLsb' 16 3 ++ s.opa.extractLsb' 8 3 ++ s.opa.extractLsb' 0 2
      status := { phase := .idle, done := true, err := .none } }

/-- R144: COORD with OPA < WIDTH × HEIGHT completes: the column in XPOS and the row in YPOS, both inside the grid, and
STATUS; nothing else changes. With OPA ≥ WIDTH × HEIGHT, so on every empty grid, it ends with OutOfBounds and writes STATUS
only. -/
def Obligations.CoordWritesColumnAndRow : Prop :=
  decode 0x00000008#32 = .ok .coord ∧
  ∀ s : State, s.status.busy = false →
    (s.opa.toNat < s.width.toNat * s.height.toNat →
      ∃ t, exec .coord s = .next t ∧
        t = { s with xpos := t.xpos, ypos := t.ypos, status := { phase := .idle, done := true, err := .none } } ∧
        t.xpos.toNat = s.opa.toNat % s.width.toNat ∧ t.ypos.toNat = s.opa.toNat / s.width.toNat ∧
        t.xpos.toNat < s.width.toNat ∧ t.ypos.toNat < s.height.toNat) ∧
    (s.width.toNat * s.height.toNat ≤ s.opa.toNat →
      exec .coord s = .next { s with status := { phase := .idle, done := true, err := .outOfBounds } })

/-- R194: an illegal word written to CMD while idle ends with IllegalCommand (STATUS 0x32) and changes nothing else. -/
def Obligations.IllegalWordWritesStatusOnly : Prop :=
  ∀ (s : State) (rest : List Turn) (w : Word) (e : Illegal), s.status.busy = false →
    s.agenda = .host (.wr 0#4 w) :: rest → decode w = .error e →
    ∃ t, step s = .next t ∧
      t = { s with agenda := rest, status := { phase := .idle, done := true, err := .illegalCommand } } ∧
      t.status.word = 0x00000032#32 ∧ t.status.busy = false

/-- R195: CMD written while busy is ignored whatever the word, legal or illegal. -/
def Obligations.CommandWhileBusyIsIgnored : Prop :=
  ∀ s : State, s.status.busy = true →
    (∀ i, exec i s = .next s) ∧
    ∀ (rest : List Turn) (w : Word), s.agenda = .host (.wr 0#4 w) :: rest → step s = .next { s with agenda := rest }

/-- R96 (derived): what no command touches, and what only some do: no pixel, no message byte, no host record; TOTAL and
IDX only by ENCODE and DECODE, RES only by the four bit-packer commands, XPOS and YPOS only by COORD. -/
def Obligations.CommandFrame : Prop :=
  ∀ (i : Instr) (s t : State), exec i s = .next t →
    SameMemory s t ∧ SameHost s t ∧ t.bus = s.bus ∧ t.width = s.width ∧ t.height = s.height ∧ t.msgLen = s.msgLen ∧
    t.opa = s.opa ∧ t.opb = s.opb ∧
    (i ≠ .encode → i ≠ .decode → t.total = s.total ∧ t.idx = s.idx) ∧
    (i ≠ .pack → i ≠ .unpack → i ≠ .embed → i ≠ .extract → t.res = s.res) ∧
    (i ≠ .coord → t.xpos = s.xpos ∧ t.ypos = s.ypos)

/-- R193 (derived): "No arm reads DONE or ERR": from an idle state every command ends the same whatever the last one left. -/
def Obligations.CommandsIgnoreTheLastStatus : Prop :=
  ∀ (i : Instr) (s : State) (d d' : Bool) (e e' : ErrCode),
    exec i { s with status := { phase := .idle, done := d, err := e } } =
      exec i { s with status := { phase := .idle, done := d', err := e' } }

/-- R218, R219 (derived): a step of the block that ends a command with an error writes STATUS and nothing else, so PIX and
MSG are as before it. -/
def Obligations.ErrorsWriteStatusOnly : Prop :=
  (∀ (i : Instr) (s t : State), s.status.busy = false → exec i s = .next t → t.status.err ≠ .none →
    t = { s with status := { phase := .idle, done := true, err := t.status.err } }) ∧
  (∀ s t : State, s.status.busy = true → s.status.Legal → seqTurn s = .next t → t.status.err ≠ .none →
    t = { s with status := { phase := .idle, done := true, err := t.status.err } })

/-! ### Memory -/

/-- R82: a pixel write is read back, and changes no other pixel and no other state. -/
def Obligations.PixelWriteReadsBack : Prop :=
  ∀ (s : State) (x y : Word) (v : Pixel), Inv s → inGrid s x y = true →
    ∃ t, pixWrite s x y v = .ok t ∧ pixRead t x y = .ok v ∧
      (∀ x' y', (x', y') ≠ (x, y) → pixelAt t x' y' = pixelAt s x' y') ∧ t = { s with pix := t.pix }

/-- R83: a message byte written is read back, and no other byte and no other state changes. -/
def Obligations.MessageWriteReadsBack : Prop :=
  ∀ (s : State) (a : Word) (v : Byte), Inv s →
    msgRead (msgWrite s a v) a = v ∧ (∀ b, b ≠ a → msgRead (msgWrite s a v) b = msgRead s b) ∧
    msgWrite s a v = { s with msg := (msgWrite s a v).msg }

/-- R62 (derived): a request outside the grid is a fault that names the address; inside it reads the stored pixel. -/
def Obligations.OutsideTheGridIsAFault : Prop :=
  ∀ (s : State) (x y : Word) (v : Pixel),
    (x.toNat < s.width.toNat ∧ y.toNat < s.height.toNat → pixRead s x y = .ok (pixelAt s x y)) ∧
    (¬(x.toNat < s.width.toNat ∧ y.toNat < s.height.toNat) →
      pixRead s x y = .error (.pixOutsideGrid x y) ∧ pixWrite s x y v = .error (.pixOutsideGrid x y))

/-- R84, R243 (derived): the host's accesses while idle: a read returns the stored element and changes nothing but the
host's own record; a write stores it and changes no register. That a PIX write completes outside the grid too, where R84
speaks of "any pixel of the grid" only, is the model's choice (log 7, deduced from R243). -/
def Obligations.HostAccessWhileIdle : Prop :=
  ∀ (s : State), s.status.busy = false →
    (∀ x y, inGrid s x y = true → hostStep (.pixRd x y) s = .next { s with seen := .pix x y (pixelAt s x y) :: s.seen }) ∧
    (∀ a, hostStep (.msgRd a) s = .next { s with seen := .msg a (msgRead s a) :: s.seen }) ∧
    (∀ x y v, ∃ t, hostStep (.pixWr x y v) s = .next t ∧ t = { s with pix := t.pix } ∧
      (Inv s → pixelAt t x y = v ∧ ∀ x' y', (x', y') ≠ (x, y) → pixelAt t x' y' = pixelAt s x' y')) ∧
    (∀ a v, ∃ t, hostStep (.msgWr a v) s = .next t ∧ t = { s with msg := t.msg } ∧
      (Inv s → msgRead t a = v ∧ ∀ b, b ≠ a → msgRead t b = msgRead s b))

/-- R81, R200, R248 (derived; the refusal is the model's choice, log 8 and 9): while busy the host has only the reads left to
it, PIX during DECODE and MSG during ENCODE; every other access is refused by name. -/
def Obligations.HostAccessWhileBusy : Prop :=
  ∀ (s : State) (x y a : Word) (p : Pixel) (b : Byte),
    (s.status.phase = .enc →
      hostStep (.pixRd x y) s = .refused .pixAccessDuringEncode ∧
      hostStep (.pixWr x y p) s = .refused .pixAccessDuringEncode ∧
      hostStep (.msgWr a b) s = .refused .msgWriteDuringEncode ∧
      hostStep (.msgRd a) s = .next { s with seen := .msg a (msgRead s a) :: s.seen }) ∧
    (s.status.phase = .decHdr ∨ s.status.phase = .decBody →
      hostStep (.msgRd a) s = .refused .msgAccessDuringDecode ∧
      hostStep (.msgWr a b) s = .refused .msgAccessDuringDecode ∧
      hostStep (.pixWr x y p) s = .refused .pixWriteDuringDecode ∧
      (inGrid s x y = true → hostStep (.pixRd x y) s = .next { s with seen := .pix x y (pixelAt s x y) :: s.seen }))

/-! ### The register port -/

/-- R192: what a register read returns, number by number, in every state, and that it changes nothing but the host's own
record. -/
def Obligations.RegisterReadReturnsTheValue : Prop :=
  ∀ s : State,
    (∀ n, hostStep (.rd n) s = .next { s with seen := .reg n (regRead n s) :: s.seen }) ∧
    regRead 0#4 s = 0 ∧ regRead 2#4 s = s.width ∧ regRead 3#4 s = s.height ∧ regRead 4#4 s = s.msgLen ∧
    regRead 5#4 s = s.total ∧ regRead 6#4 s = s.idx ∧ regRead 7#4 s = s.opa ∧ regRead 8#4 s = s.opb ∧
    regRead 9#4 s = s.res ∧ regRead 10#4 s = s.xpos ∧ regRead 11#4 s = s.ypos ∧
    (∀ n : RegNum, 12 ≤ n.toNat → regRead n s = 0) ∧
    regRead 1#4 s = 0#24 ++ s.status.err.code ++ s.status.phase.code ++ BitVec.ofBool s.status.done ++
      BitVec.ofBool (s.status.phase != .idle)

/-- R191: what a register write does, number by number: five registers store all 32 bits while idle, everything is ignored
while busy, read-only and reserved numbers are ignored always, and STATUS is not touched. -/
def Obligations.RegisterWriteStoresOrIsIgnored : Prop :=
  ∀ (s : State) (v : Word),
    (s.status.busy = false →
      hostStep (.wr 2#4 v) s = .next { s with width := v } ∧ hostStep (.wr 3#4 v) s = .next { s with height := v } ∧
      hostStep (.wr 4#4 v) s = .next { s with msgLen := v } ∧ hostStep (.wr 7#4 v) s = .next { s with opa := v } ∧
      hostStep (.wr 8#4 v) s = .next { s with opb := v } ∧ hostStep (.wr 0#4 v) s = dispatch v s) ∧
    (s.status.busy = true → ∀ n, hostStep (.wr n v) s = .next s) ∧
    (∀ n : RegNum, n.toNat ∈ [1, 5, 6, 9, 10, 11, 12, 13, 14, 15] → hostStep (.wr n v) s = .next s)

/-- R201 (derived): the host's reads and the sequencer's steps commute: in either order they reach the same registers,
memories and status, whatever the read returned. -/
def Obligations.HostReadsCommuteWithTheSequencer : Prop :=
  ∀ (s t u : State) (rest : List Turn) (op : HostOp),
    ((∃ n, op = .rd n) ∨ (∃ x y, op = .pixRd x y) ∨ (∃ a, op = .msgRd a)) →
    steps 2 { s with agenda := .host op :: .seq :: rest } = .next t →
    steps 2 { s with agenda := .seq :: .host op :: rest } = .next u →
    { t with seen := [] } = { u with seen := [] }

/-! ### The bit-packer -/

/-- R125: Pack and Unpack are inverse bijections. -/
def Obligations.PackUnpackInverse : Prop :=
  (∀ b : Byte, unpack (pack b).1 (pack b).2.1 (pack b).2.2 = b) ∧
  (∀ (r g : BitVec 3) (b : BitVec 2), pack (unpack r g b) = (r, g, b))

/-- R126: the core round-trip invariant. -/
def Obligations.ExtractAfterEmbed : Prop :=
  ∀ (p : Pixel) (b : Byte), extract (embed p b) = b

/-- R123: Embed channel by channel, as the source's masks and shifts give it. -/
def Obligations.EmbedChannelByChannel : Prop :=
  ∀ (p : Pixel) (b : Byte),
    embed p b = (p &&& 0xF8F8FC#24) ||| packWord b ∧
    red (embed p b) = (red p &&& 0b11111000#8) ||| (pack b).1.setWidth 8 ∧
    green (embed p b) = (green p &&& 0b11111000#8) ||| (pack b).2.1.setWidth 8 ∧
    blue (embed p b) = (blue p &&& 0b11111100#8) ||| (pack b).2.2.setWidth 8

/-- R127: the distortion bound, the bits it leaves alone, and that it is reached. -/
def Obligations.DistortionBound : Prop :=
  (∀ (p : Pixel) (b : Byte),
    ((red (embed p b)).toNat : Int) - (red p).toNat ≤ 7 ∧ ((red p).toNat : Int) - (red (embed p b)).toNat ≤ 7 ∧
    ((green (embed p b)).toNat : Int) - (green p).toNat ≤ 7 ∧ ((green p).toNat : Int) - (green (embed p b)).toNat ≤ 7 ∧
    ((blue (embed p b)).toNat : Int) - (blue p).toNat ≤ 3 ∧ ((blue p).toNat : Int) - (blue (embed p b)).toNat ≤ 3 ∧
    (red (embed p b)).extractLsb' 3 5 = (red p).extractLsb' 3 5 ∧
    (green (embed p b)).extractLsb' 3 5 = (green p).extractLsb' 3 5 ∧
    (blue (embed p b)).extractLsb' 2 6 = (blue p).extractLsb' 2 6) ∧
  embed 0x000000#24 0xFF#8 = 0x070703#24 ∧ embed 0xFFFFFF#24 0x00#8 = 0xF8F8FC#24

/-- R129: overwriting, fixed points, PackWord, and that each byte is the Extract of 2^16 pixel words. -/
def Obligations.EmbedLaws : Prop :=
  (∀ (p : Pixel) (a b : Byte), embed (embed p a) b = embed p b) ∧
  (∀ p : Pixel, embed p (extract p) = p) ∧
  (∀ (p : Pixel) (b : Byte), embed p b = p ↔ extract p = b) ∧
  (∀ b : Byte, extract (packWord b) = b ∧ embed 0x000000#24 b = packWord b) ∧
  (∀ b : Byte, ((Finset.range (2 ^ 24)).filter fun n => extract (BitVec.ofNat 24 n) = b).card = 2 ^ 16)

/-- R128 (derived): the three lanes are independent, in Embed and in Extract. -/
def Obligations.LanesAreIndependent : Prop :=
  ∀ (p q : Pixel) (a b : Byte),
    (red p = red q → a.extractLsb' 5 3 = b.extractLsb' 5 3 →
      red (embed p a) = red (embed q b) ∧ (extract p).extractLsb' 5 3 = (extract q).extractLsb' 5 3) ∧
    (green p = green q → a.extractLsb' 2 3 = b.extractLsb' 2 3 →
      green (embed p a) = green (embed q b) ∧ (extract p).extractLsb' 2 3 = (extract q).extractLsb' 2 3) ∧
    (blue p = blue q → a.extractLsb' 0 2 = b.extractLsb' 0 2 →
      blue (embed p a) = blue (embed q b) ∧ (extract p).extractLsb' 0 2 = (extract q).extractLsb' 0 2)

/-! ### The address generator -/

/-- R140: coord is the remainder and the floor of the quotient. -/
def Obligations.CoordIsDivision : Prop :=
  ∀ idx width : Word, 1 ≤ width.toNat →
    (coord idx width).1.toNat = idx.toNat % width.toNat ∧ (coord idx width).2.toNat = idx.toNat / width.toNat ∧
    idx.toNat = (coord idx width).2.toNat * width.toNat + (coord idx width).1.toNat ∧
    (coord idx width).1.toNat < width.toNat

/-- R141: the range law and its converse. -/
def Obligations.CoordRange : Prop :=
  ∀ (idx width : Word) (height : Nat), 1 ≤ width.toNat →
    (idx.toNat < width.toNat * height →
      (coord idx width).1.toNat ≤ width.toNat - 1 ∧ (coord idx width).2.toNat ≤ height - 1) ∧
    (width.toNat * height ≤ idx.toNat → height ≤ (coord idx width).2.toNat)

/-- R142: coord and `y × width + x` are inverse, and coord is injective. -/
def Obligations.CoordInverse : Prop :=
  ∀ width : Word, 1 ≤ width.toNat →
    (∀ x y : Word, x.toNat < width.toNat → y.toNat * width.toNat + x.toNat < 2 ^ 32 →
      coord (BitVec.ofNat 32 (y.toNat * width.toNat + x.toNat)) width = (x, y)) ∧
    (∀ idx : Word, (coord idx width).2.toNat * width.toNat + (coord idx width).1.toNat = idx.toNat) ∧
    (∀ i j : Word, coord i width = coord j width → i = j)

/-- R143: the counter form of coord. -/
def Obligations.CoordCounts : Prop :=
  ∀ width : Word, 1 ≤ width.toNat →
    coord 0#32 width = (0#32, 0#32) ∧
    ∀ idx : Word, idx.toNat + 1 < 2 ^ 32 →
      coord (idx + 1#32) width =
        if (coord idx width).1 = width - 1#32 then (0#32, (coord idx width).2 + 1#32)
        else ((coord idx width).1 + 1#32, (coord idx width).2)

/-! ### ENCODE -/

/-- R151: ENCODE's start step: CapacityExceeded, with STATUS alone written, if `MSG_LEN + 4` exceeds 2^32 - 1 or CAP; else
TOTAL, IDX and the phase. No memory access. -/
def Obligations.EncodeStart : Prop :=
  decode 0x00000001#32 = .ok .encode ∧
  ∀ s : State, s.status.busy = false →
    (2 ^ 32 - 1 < s.msgLen.toNat + 4 ∨ s.width.toNat * s.height.toNat < s.msgLen.toNat + 4 →
      exec .encode s = .next { s with status := { phase := .idle, done := true, err := .capacityExceeded } }) ∧
    (s.msgLen.toNat + 4 ≤ 2 ^ 32 - 1 → s.msgLen.toNat + 4 ≤ s.width.toNat * s.height.toNat →
      ∃ t, exec .encode s = .next t ∧ t.total.toNat = s.msgLen.toNat + 4 ∧
        t = { s with total := t.total, idx := 0, status := { phase := .enc, done := false, err := .none } })

/-- R155: if ENCODE fails it fails in its start step, which makes no memory access. -/
def Obligations.NoPartialWritesOnFailure : Prop :=
  (∀ s t : State, exec .encode s = .next t → t.pix = s.pix ∧ t.msg = s.msg ∧ t.bus = s.bus) ∧
  (∀ s t : State, s.status.phase = .enc → s.status.Legal → seqTurn s = .next t → t.status.err = .none)

/-- R161 (derived): 1 × 1 with the empty message fails, an exact fit passes the check, and no ENCODE passes it on fewer than
four pixels, nor on four with more than the empty message. -/
def Obligations.CapacityBoundary : Prop :=
  (∀ s : State, s.status.busy = false → s.width = 1 → s.height = 1 → s.msgLen = 0 →
    ∃ t, exec .encode s = .next t ∧ t.status.err = .capacityExceeded) ∧
  (∀ s : State, s.status.busy = false → s.msgLen.toNat + 4 ≤ 2 ^ 32 - 1 →
    s.width.toNat * s.height.toNat = s.msgLen.toNat + 4 → ∃ t, exec .encode s = .next t ∧ t.status.phase = .enc) ∧
  (∀ s t : State, s.status.busy = false → exec .encode s = .next t → t.status.phase = .enc →
    4 ≤ s.width.toNat * s.height.toNat ∧ (s.width.toNat * s.height.toNat = 4 → s.msgLen = 0))

/-- R159: StreamByte: the bytes of TOTAL, most significant first, then the message; with TOTAL = MSG_LEN + 4 it is byte `i`
of the EncodedStream. -/
def Obligations.StreamByteOfTotalThenMessage : Prop :=
  ∀ (s : State) (i : Word),
    (i.toNat < 4 → streamByte s i = s.total.extractLsb' (24 - 8 * i.toNat) 8) ∧
    (4 ≤ i.toNat → streamByte s i = s.msg.read (i.toNat - 4)) ∧
    (s.total.toNat = s.msgLen.toNat + 4 → streamByte s i = encodedStream s i.toNat)

/-- R152: ENCODE's processing step embeds one stream byte in one pixel and raises IDX by one; no other pixel and nothing
else changes; the accesses are made in the order of R75. -/
def Obligations.EncodeProcessingStep : Prop :=
  ∀ s : State, Inv s → s.status.phase = .enc → s.idx.toNat < s.total.toNat →
    ∃ t x y, seqTurn s = .next t ∧ (x, y) = coord s.idx s.width ∧
      t = { s with pix := t.pix, idx := t.idx, bus := t.bus } ∧ t.idx.toNat = s.idx.toNat + 1 ∧
      pixelAt t x y = embed (pixelAt s x y) (streamByte s s.idx) ∧
      (∀ x' y', (x', y') ≠ (x, y) → pixelAt t x' y' = pixelAt s x' y') ∧
      t.bus = .pixWrite x y (embed (pixelAt s x y) (streamByte s s.idx)) :: .pixRead x y (pixelAt s x y) ::
        ((if s.idx.toNat < 4 then [] else [.msgRead (s.idx - 4) (msgRead s (s.idx - 4))]) ++ s.bus)

/-- R153: ENCODE's finish step writes STATUS only. -/
def Obligations.EncodeFinishStep : Prop :=
  ∀ s : State, s.status.phase = .enc → s.idx = s.total →
    seqTurn s = .next { s with status := { phase := .idle, done := true, err := .none } }

/-- R154: the whole ENCODE, from the CMD write on: it fails with STATUS alone written, or, in every interleaving in which the
host keeps its duties, ends after TOTAL processing steps and a finish step with the EncodedStream in the first TOTAL pixels
and every other pixel as before. -/
def Obligations.EncodeWholeCommand : Prop :=
  ∀ (s : State) (rest : List Turn), Inv s → s.status.busy = false →
    (2 ^ 32 - 1 < s.msgLen.toNat + 4 ∨ s.width.toNat * s.height.toNat < s.msgLen.toNat + 4 →
      s.agenda = .host (.wr 0#4 0x00000001#32) :: rest →
      step s = .next { s with agenda := rest, status := { phase := .idle, done := true, err := .capacityExceeded } }) ∧
    (s.msgLen.toNat + 4 ≤ 2 ^ 32 - 1 → s.msgLen.toNat + 4 ≤ s.width.toNat * s.height.toNat →
      ∀ turns, Schedule encodeTurn (s.msgLen.toNat + 4 + 1) turns →
      s.agenda = .host (.wr 0#4 0x00000001#32) :: (turns ++ rest) →
      ∃ t, steps (1 + turns.length) s = .next t ∧
        t = { s with agenda := rest, seen := t.seen, total := t.total, idx := t.idx, pix := t.pix, bus := t.bus,
                     status := { phase := .idle, done := true, err := .none } } ∧
        t.total.toNat = s.msgLen.toNat + 4 ∧ t.idx.toNat = s.msgLen.toNat + 4 ∧
        (∀ x y : Word, inGrid s x y = true →
          pixelAt t x y =
            if y.toNat * s.width.toNat + x.toNat < s.msgLen.toNat + 4
            then embed (pixelAt s x y) (encodedStream s (y.toNat * s.width.toNat + x.toNat))
            else pixelAt s x y) ∧
        (∀ x y : Word, inGrid s x y = false → pixelAt t x y = pixelAt s x y))

/-- R158, R252 (derived): a successful ENCODE is busy, with IDX = j, after its start step and j processing steps, for every
j up to TOTAL, the sequencer running alone; with `EncodeWholeCommand`, it ends after exactly TOTAL + 1 of its steps. -/
def Obligations.EncodeProgress : Prop :=
  ∀ (s : State) (j : Nat), Inv s → s.status.busy = false → s.agenda = [.host (.wr 0#4 0x00000001#32)] →
    s.msgLen.toNat + 4 ≤ 2 ^ 32 - 1 → s.msgLen.toNat + 4 ≤ s.width.toNat * s.height.toNat → j ≤ s.msgLen.toNat + 4 →
    ∃ t, steps (1 + j) s = .next t ∧ t.status.phase = .enc ∧ t.idx.toNat = j ∧ t.total.toNat = s.msgLen.toNat + 4

/-- R105, R253 (derived; the alternation of polls and sequencer steps is the model's choice, log 3): HIDE ends, with the
host's last read showing STATUS = 0x02, and IDX = TOTAL = MSG_LEN + 4. -/
def Obligations.HideEndsWithDoneRead : Prop :=
  ∀ s : State, Inv s → s.status.busy = false → s.agenda = hide →
    s.msgLen.toNat + 4 ≤ 2 ^ 32 - 1 → s.msgLen.toNat + 4 ≤ s.width.toNat * s.height.toNat →
    ∃ t, steps (1 + 2 * (s.msgLen.toNat + 5) + 1) s = .next t ∧ t.agenda = [] ∧
      t.seen.head? = some (.reg 1#4 0x00000002#32) ∧ t.idx.toNat = s.msgLen.toNat + 4 ∧ t.idx = t.total ∧
      t.status = { phase := .idle, done := true, err := .none }

/-! ### DECODE -/

/-- R171: DECODE's start step: OutOfBounds, with STATUS alone written, if CAP < 4; else TOTAL, IDX and the phase. -/
def Obligations.DecodeStart : Prop :=
  decode 0x00000002#32 = .ok .decode ∧
  ∀ s : State, s.status.busy = false →
    (s.width.toNat * s.height.toNat < 4 →
      exec .decode s = .next { s with status := { phase := .idle, done := true, err := .outOfBounds } }) ∧
    (4 ≤ s.width.toNat * s.height.toNat →
      exec .decode s = .next { s with total := 0, idx := 0, status := { phase := .decHdr, done := false, err := .none } })

/-- R172: DECODE's header step shifts one extracted byte into TOTAL. -/
def Obligations.DecodeHeaderStep : Prop :=
  ∀ s : State, Inv s → s.status.phase = .decHdr → s.idx.toNat < 4 →
    ∃ t x y, seqTurn s = .next t ∧ (x, y) = coord s.idx s.width ∧
      t = { s with total := t.total, idx := t.idx, bus := .pixRead x y (pixelAt s x y) :: s.bus } ∧
      t.total.toNat = s.total.toNat * 256 + (extract (pixelAt s x y)).toNat ∧ t.idx.toNat = s.idx.toNat + 1

/-- R173: DECODE's header-finish step: OutOfBounds if the claimed length exceeds CAP, else on to the body; STATUS only. -/
def Obligations.DecodeHeaderFinishStep : Prop :=
  ∀ s : State, s.status.phase = .decHdr → s.idx.toNat = 4 →
    (s.width.toNat * s.height.toNat < s.total.toNat →
      seqTurn s = .next { s with status := { phase := .idle, done := true, err := .outOfBounds } }) ∧
    (s.total.toNat ≤ s.width.toNat * s.height.toNat →
      seqTurn s = .next { s with status := { phase := .decBody, done := false, err := .none } })

/-- R174: DECODE's body step stores one extracted byte at index IDX - 4 and raises IDX by one. -/
def Obligations.DecodeBodyStep : Prop :=
  ∀ s : State, Inv s → s.status.phase = .decBody → s.idx.toNat < s.total.toNat →
    ∃ t x y a, seqTurn s = .next t ∧ (x, y) = coord s.idx s.width ∧ a.toNat = s.idx.toNat - 4 ∧
      t = { s with msg := t.msg, idx := t.idx,
                   bus := .msgWrite a (extract (pixelAt s x y)) :: .pixRead x y (pixelAt s x y) :: s.bus } ∧
      t.idx.toNat = s.idx.toNat + 1 ∧ msgRead t a = extract (pixelAt s x y) ∧ ∀ b, b ≠ a → msgRead t b = msgRead s b

/-- R175: DECODE's body-finish step writes MSG_LEN and STATUS. -/
def Obligations.DecodeBodyFinishStep : Prop :=
  ∀ s : State, s.status.phase = .decBody → s.total.toNat ≤ s.idx.toNat →
    ∃ t, seqTurn s = .next t ∧
      t = { s with msgLen := t.msgLen, status := { phase := .idle, done := true, err := .none } } ∧
      t.msgLen.toNat = if 4 ≤ s.total.toNat then s.total.toNat - 4 else 0

/-- R179 (derived): no step of DECODE changes a pixel, WIDTH, HEIGHT, OPA, OPB, RES, XPOS or YPOS. -/
def Obligations.DecodeNeverWritesPix : Prop :=
  ∀ s t : State,
    exec .decode s = .next t ∨ (s.status.phase = .decHdr ∨ s.status.phase = .decBody) ∧ seqTurn s = .next t →
    t.pix = s.pix ∧ t.width = s.width ∧ t.height = s.height ∧ t.opa = s.opa ∧ t.opb = s.opb ∧ t.res = s.res ∧
      t.xpos = s.xpos ∧ t.ypos = s.ypos

/-- R176: the whole DECODE, from the CMD write on: OutOfBounds at the start; or, in every interleaving in which the host keeps
its duties, OutOfBounds after the header, or success with the message in MSG and its length in MSG_LEN; PIX as before in
all three. -/
def Obligations.DecodeWholeCommand : Prop :=
  ∀ (s : State) (rest : List Turn), Inv s → s.status.busy = false →
    (s.width.toNat * s.height.toNat < 4 → s.agenda = .host (.wr 0#4 0x00000002#32) :: rest →
      step s = .next { s with agenda := rest, status := { phase := .idle, done := true, err := .outOfBounds } }) ∧
    (4 ≤ s.width.toNat * s.height.toNat → s.width.toNat * s.height.toNat < claimedLength s →
      ∀ turns, Schedule (decodeTurn s) (4 + 1) turns → s.agenda = .host (.wr 0#4 0x00000002#32) :: (turns ++ rest) →
      ∃ t, steps (1 + turns.length) s = .next t ∧
        t = { s with agenda := rest, seen := t.seen, total := t.total, idx := 4, bus := t.bus,
                     status := { phase := .idle, done := true, err := .outOfBounds } } ∧
        t.total.toNat = claimedLength s) ∧
    (4 ≤ s.width.toNat * s.height.toNat → claimedLength s ≤ s.width.toNat * s.height.toNat →
      ∀ turns, Schedule (decodeTurn s) (4 + 1 + (claimedLength s - 4) + 1) turns →
      s.agenda = .host (.wr 0#4 0x00000002#32) :: (turns ++ rest) →
      ∃ t, steps (1 + turns.length) s = .next t ∧
        t = { s with agenda := rest, seen := t.seen, total := t.total, idx := t.idx, msgLen := t.msgLen, msg := t.msg,
                     bus := t.bus, status := { phase := .idle, done := true, err := .none } } ∧
        t.total.toNat = claimedLength s ∧ t.idx.toNat = max (claimedLength s) 4 ∧
        t.msgLen.toNat = claimedLength s - 4 ∧
        (∀ j : Nat, j < claimedLength s - 4 → t.msg.read j = carried s (j + 4)) ∧
        (∀ j : Nat, claimedLength s - 4 ≤ j → t.msg.read j = s.msg.read j))

/-- R160: what ENCODE hid, DECODE recovers, whatever the pixels were, whatever stood in MSG, MSG_LEN and the other registers
when DECODE started, and however the host interleaved its reads and ignored writes. -/
def Obligations.DecodeRecoversTheMessage : Prop :=
  ∀ (s : State) (turns rest : List Turn), Inv s → s.status.busy = false →
    s.msgLen.toNat + 4 ≤ 2 ^ 32 - 1 → s.msgLen.toNat + 4 ≤ s.width.toNat * s.height.toNat →
    Schedule encodeTurn (s.msgLen.toNat + 4 + 1) turns →
    s.agenda = .host (.wr 0#4 0x00000001#32) :: (turns ++ rest) →
    ∃ t, steps (1 + turns.length) s = .next t ∧ t.status.word = 0x00000002#32 ∧
      ∀ (u : State) (turns' rest' : List Turn), Inv u → u.status.busy = false →
        u.width = s.width → u.height = s.height → (∀ x y, inGrid u x y = true → pixelAt u x y = pixelAt t x y) →
        Schedule (decodeTurn u) (4 + 1 + s.msgLen.toNat + 1) turns' →
        u.agenda = .host (.wr 0#4 0x00000002#32) :: (turns' ++ rest') →
        ∃ v, steps (1 + turns'.length) u = .next v ∧ v.status.word = 0x00000002#32 ∧
          v.msgLen = s.msgLen ∧ ∀ j : Nat, j < s.msgLen.toNat → v.msg.read j = s.msg.read j
end

