-- ==== Sys2Proof/Laws/Memory.lean ====
section
/-! SUPPORT. The laws of the sparse memory: read after write, the canonical form kept, equal contents are equal data, and
every content of the address space is some memory in canonical form. -/

namespace Sys2Proof.Machine

variable {n : Nat}

@[simp] theorem Memory.read_nil (a : Nat) : Memory.read ([] : Memory n) a = unlisted n := rfl

theorem Memory.read_cons (k : Nat) (v : BitVec n) (m : Memory n) (a : Nat) :
    Memory.read ((k, v) :: m) a = if a = k then v else Memory.read m a := rfl

theorem Memory.read_cell_append (a b : Nat) (v : BitVec n) (m : Memory n) (h : ∀ c ∈ m, c.1 ≠ a) :
    Memory.read (Memory.cell a v ++ m) b = if b = a then v else Memory.read m b := by
  unfold Memory.cell
  split
  · next hv =>
    subst hv
    rw [List.nil_append]
    split
    · next hb =>
      subst hb
      induction m with
      | nil => rfl
      | cons c m ih =>
        obtain ⟨k, w⟩ := c
        have hk : b ≠ k := fun e => h (k, w) (by simp) e.symm
        rw [Memory.read_cons, if_neg hk]
        exact ih fun d hd => h d (by simp [hd])
    · rfl
  · rfl

/-- A write read back: the new value at its own address, the old one everywhere else (20_memory.md R82, R83). -/
theorem Memory.read_write (m : Memory n) (hm : m.Pairwise (fun c d => c.1 < d.1)) (a b : Nat) (v : BitVec n) :
    Memory.read (Memory.write m a v) b = if b = a then v else Memory.read m b := by
  induction m with
  | nil => simpa [Memory.write] using Memory.read_cell_append a b v [] (by simp)
  | cons c m ih =>
    obtain ⟨k, w⟩ := c
    rw [List.pairwise_cons] at hm
    unfold Memory.write
    split
    · next hlt =>
      apply Memory.read_cell_append
      intro d hd
      rcases List.mem_cons.1 hd with rfl | hd
      · exact (Nat.ne_of_lt hlt).symm
      · have := hm.1 d hd
        exact (Nat.ne_of_lt (Nat.lt_trans hlt this)).symm
    · split
      · next heq =>
        subst heq
        rw [Memory.read_cell_append a b v m fun d hd => (Nat.ne_of_lt (hm.1 d hd)).symm, Memory.read_cons]
        split <;> simp_all
      · next hne =>
        rw [Memory.read_cons, Memory.read_cons, ih hm.2]
        by_cases hb : b = k
        · subst hb
          simp [Ne.symm hne]
        · simp [hb]

theorem Memory.read_write_same (m : Memory n) (hm : m.Pairwise (fun c d => c.1 < d.1)) (a : Nat) (v : BitVec n) :
    Memory.read (Memory.write m a v) a = v := by
  rw [Memory.read_write m hm, if_pos rfl]

theorem Memory.read_write_other (m : Memory n) (hm : m.Pairwise (fun c d => c.1 < d.1)) {a b : Nat} (h : b ≠ a)
    (v : BitVec n) : Memory.read (Memory.write m a v) b = Memory.read m b := by
  rw [Memory.read_write m hm, if_neg h]

theorem Memory.mem_cell {a : Nat} {v : BitVec n} {c : Nat × BitVec n} (h : c ∈ Memory.cell a v) :
    c = (a, v) ∧ v ≠ unlisted n := by
  unfold Memory.cell at h
  split at h
  · simp at h
  · exact ⟨by simpa using h, by assumption⟩

theorem Memory.mem_write {m : Memory n} {a : Nat} {v : BitVec n} {c : Nat × BitVec n} (h : c ∈ Memory.write m a v) :
    c ∈ m ∨ c = (a, v) ∧ v ≠ unlisted n := by
  induction m with
  | nil => exact .inr (Memory.mem_cell (by simpa [Memory.write] using h))
  | cons d m ih =>
    obtain ⟨k, w⟩ := d
    unfold Memory.write at h
    split at h
    · rcases List.mem_append.1 h with h | h
      · exact .inr (Memory.mem_cell h)
      · exact .inl h
    · split at h
      · rcases List.mem_append.1 h with h | h
        · exact .inr (Memory.mem_cell h)
        · exact .inl (by simp [h])
      · rcases List.mem_cons.1 h with h | h
        · exact .inl (by simp [h])
        · exact (ih h).imp (fun h => by simp [h]) id

theorem Memory.pairwise_cell_append (a : Nat) (v : BitVec n) {m : Memory n} (hm : m.Pairwise (fun c d => c.1 < d.1))
    (h : ∀ c ∈ m, a < c.1) : (Memory.cell a v ++ m).Pairwise (fun c d => c.1 < d.1) := by
  unfold Memory.cell
  split
  · simpa using hm
  · exact List.pairwise_cons.2 ⟨h, hm⟩

theorem Memory.pairwise_write {m : Memory n} (hm : m.Pairwise (fun c d => c.1 < d.1)) (a : Nat) (v : BitVec n) :
    (Memory.write m a v).Pairwise (fun c d => c.1 < d.1) := by
  induction m with
  | nil => simpa [Memory.write] using Memory.pairwise_cell_append a v (m := []) (by simp) (by simp)
  | cons c m ih =>
    obtain ⟨k, w⟩ := c
    have hc := List.pairwise_cons.1 hm
    unfold Memory.write
    split
    · next hlt =>
      apply Memory.pairwise_cell_append a v hm
      intro d hd
      rcases List.mem_cons.1 hd with rfl | hd
      · exact hlt
      · exact Nat.lt_trans hlt (hc.1 d hd)
    · split
      · next heq =>
        subst heq
        exact Memory.pairwise_cell_append a v hc.2 hc.1
      · next h1 h2 =>
        refine List.pairwise_cons.2 ⟨fun d hd => ?_, ih hc.2⟩
        rcases Memory.mem_write hd with hd | ⟨rfl, -⟩
        · exact hc.1 d hd
        · exact Nat.lt_of_le_of_ne (Nat.le_of_not_lt h1) (Ne.symm h2)

/-- A write keeps the canonical form. -/
theorem Memory.wf_write {bound : Nat} {m : Memory n} (hm : m.wf bound) {a : Nat} (ha : a < bound) (v : BitVec n) :
    (Memory.write m a v).wf bound := by
  refine ⟨Memory.pairwise_write hm.1 a v, fun c hc => ?_⟩
  rcases Memory.mem_write hc with hc | ⟨rfl, hv⟩
  · exact hm.2 c hc
  · exact ⟨ha, hv⟩

theorem Memory.wf_nil (bound : Nat) : Memory.wf bound ([] : Memory n) := by simp [Memory.wf]

theorem Memory.read_below {k a : Nat} {m : Memory n} (h : ∀ c ∈ m, k < c.1) (ha : a ≤ k) :
    Memory.read m a = unlisted n := by
  induction m with
  | nil => rfl
  | cons c m ih =>
    obtain ⟨j, w⟩ := c
    have hj : k < j := h (j, w) (by simp)
    rw [Memory.read_cons, if_neg (by omega)]
    exact ih fun d hd => h d (by simp [hd])

/-- Equal contents are equal data. -/
theorem Memory.ext_of_read {b₁ b₂ : Nat} {m₁ m₂ : Memory n} (h₁ : m₁.wf b₁) (h₂ : m₂.wf b₂)
    (h : ∀ a, Memory.read m₁ a = Memory.read m₂ a) : m₁ = m₂ := by
  induction m₁ generalizing m₂ with
  | nil =>
    cases m₂ with
    | nil => rfl
    | cons d m₂ =>
      have := h d.1
      rw [Memory.read_nil, Memory.read_cons, if_pos rfl] at this
      exact absurd this.symm (h₂.2 d (by simp)).2
  | cons c m₁ ih =>
    cases m₂ with
    | nil =>
      have := h c.1
      rw [Memory.read_nil, Memory.read_cons, if_pos rfl] at this
      exact absurd this (h₁.2 c (by simp)).2
    | cons d m₂ =>
      obtain ⟨k, v⟩ := c
      obtain ⟨j, w⟩ := d
      have p₁ := List.pairwise_cons.1 h₁.1
      have p₂ := List.pairwise_cons.1 h₂.1
      have hv : v ≠ unlisted n := (h₁.2 (k, v) (by simp)).2
      have hw : w ≠ unlisted n := (h₂.2 (j, w) (by simp)).2
      have hkj : k = j := by
        rcases Nat.lt_trichotomy k j with hl | he | hl
        · have := h k
          rw [Memory.read_cons, if_pos rfl, Memory.read_cons, if_neg (by omega),
            Memory.read_below p₂.1 (by simp only; omega)] at this
          exact absurd this hv
        · exact he
        · have := h j
          rw [Memory.read_cons, if_neg (by omega), Memory.read_below p₁.1 (by simp only; omega),
            Memory.read_cons, if_pos rfl] at this
          exact absurd this.symm hw
      subst hkj
      have hvw : v = w := by simpa [Memory.read_cons] using h k
      subst hvw
      congr 1
      refine ih ⟨p₁.2, fun c hc => h₁.2 c (by simp [hc])⟩ ⟨p₂.2, fun c hc => h₂.2 c (by simp [hc])⟩ fun a => ?_
      by_cases hak : a = k
      · subst hak
        rw [Memory.read_below p₁.1 le_rfl, Memory.read_below p₂.1 le_rfl]
      · simpa [Memory.read_cons, hak] using h a

/-- Every content of the first `bound` addresses is some memory in canonical form, so a statement about every state is a
statement about every content of PIX and MSG the host can leave there (93_implementation_defined.md U6; log 5). -/
theorem Memory.every_content (bound : Nat) (f : Nat → BitVec n) :
    ∃ m : Memory n, m.wf bound ∧ ∀ a, a < bound → Memory.read m a = f a := by
  suffices H : ∀ k, k ≤ bound → ∃ m : Memory n, m.wf bound ∧ ∀ a, a < k → Memory.read m a = f a from H bound le_rfl
  intro k
  induction k with
  | zero => exact fun _ => ⟨[], Memory.wf_nil bound, fun a ha => absurd ha (Nat.not_lt_zero a)⟩
  | succ k ih =>
    intro hk
    obtain ⟨m, hm, hr⟩ := ih (by omega)
    refine ⟨Memory.write m k (f k), Memory.wf_write hm (by omega) _, fun a ha => ?_⟩
    rw [Memory.read_write m hm.1]
    split
    · next h => rw [h]
    · exact hr a (by omega)

end Sys2Proof.Machine
end

