-- ==== Sys2Proof/Laws/State.lean ====
section
/-! SUPPORT. One lemma per field of State per named update, and CAP, the grid, one pixel and one message byte after each. -/

namespace Sys2Proof.Machine

@[simp] theorem setStatus_width (t : Status) (s : State) : (setStatus t s).width = s.width := rfl
@[simp] theorem setStatus_height (t : Status) (s : State) : (setStatus t s).height = s.height := rfl
@[simp] theorem setStatus_msgLen (t : Status) (s : State) : (setStatus t s).msgLen = s.msgLen := rfl
@[simp] theorem setStatus_total (t : Status) (s : State) : (setStatus t s).total = s.total := rfl
@[simp] theorem setStatus_idx (t : Status) (s : State) : (setStatus t s).idx = s.idx := rfl
@[simp] theorem setStatus_opa (t : Status) (s : State) : (setStatus t s).opa = s.opa := rfl
@[simp] theorem setStatus_opb (t : Status) (s : State) : (setStatus t s).opb = s.opb := rfl
@[simp] theorem setStatus_res (t : Status) (s : State) : (setStatus t s).res = s.res := rfl
@[simp] theorem setStatus_xpos (t : Status) (s : State) : (setStatus t s).xpos = s.xpos := rfl
@[simp] theorem setStatus_ypos (t : Status) (s : State) : (setStatus t s).ypos = s.ypos := rfl
@[simp] theorem setStatus_status (t : Status) (s : State) : (setStatus t s).status = t := rfl
@[simp] theorem setStatus_pix (t : Status) (s : State) : (setStatus t s).pix = s.pix := rfl
@[simp] theorem setStatus_msg (t : Status) (s : State) : (setStatus t s).msg = s.msg := rfl
@[simp] theorem setStatus_agenda (t : Status) (s : State) : (setStatus t s).agenda = s.agenda := rfl
@[simp] theorem setStatus_seen (t : Status) (s : State) : (setStatus t s).seen = s.seen := rfl
@[simp] theorem setStatus_bus (t : Status) (s : State) : (setStatus t s).bus = s.bus := rfl
@[simp] theorem setStatus_cap (t : Status) (s : State) : cap (setStatus t s) = cap s := rfl
@[simp] theorem setStatus_inGrid (t : Status) (s : State) (a c : Word) : inGrid (setStatus t s) a c = inGrid s a c := rfl
@[simp] theorem setStatus_pixelAt (t : Status) (s : State) (a c : Word) : pixelAt (setStatus t s) a c = pixelAt s a c := rfl
@[simp] theorem setStatus_msgRead (t : Status) (s : State) (j : Word) : msgRead (setStatus t s) j = msgRead s j := rfl

@[simp] theorem setIdx_width (v : Word) (s : State) : (setIdx v s).width = s.width := rfl
@[simp] theorem setIdx_height (v : Word) (s : State) : (setIdx v s).height = s.height := rfl
@[simp] theorem setIdx_msgLen (v : Word) (s : State) : (setIdx v s).msgLen = s.msgLen := rfl
@[simp] theorem setIdx_total (v : Word) (s : State) : (setIdx v s).total = s.total := rfl
@[simp] theorem setIdx_idx (v : Word) (s : State) : (setIdx v s).idx = v := rfl
@[simp] theorem setIdx_opa (v : Word) (s : State) : (setIdx v s).opa = s.opa := rfl
@[simp] theorem setIdx_opb (v : Word) (s : State) : (setIdx v s).opb = s.opb := rfl
@[simp] theorem setIdx_res (v : Word) (s : State) : (setIdx v s).res = s.res := rfl
@[simp] theorem setIdx_xpos (v : Word) (s : State) : (setIdx v s).xpos = s.xpos := rfl
@[simp] theorem setIdx_ypos (v : Word) (s : State) : (setIdx v s).ypos = s.ypos := rfl
@[simp] theorem setIdx_status (v : Word) (s : State) : (setIdx v s).status = s.status := rfl
@[simp] theorem setIdx_pix (v : Word) (s : State) : (setIdx v s).pix = s.pix := rfl
@[simp] theorem setIdx_msg (v : Word) (s : State) : (setIdx v s).msg = s.msg := rfl
@[simp] theorem setIdx_agenda (v : Word) (s : State) : (setIdx v s).agenda = s.agenda := rfl
@[simp] theorem setIdx_seen (v : Word) (s : State) : (setIdx v s).seen = s.seen := rfl
@[simp] theorem setIdx_bus (v : Word) (s : State) : (setIdx v s).bus = s.bus := rfl
@[simp] theorem setIdx_cap (v : Word) (s : State) : cap (setIdx v s) = cap s := rfl
@[simp] theorem setIdx_inGrid (v : Word) (s : State) (a c : Word) : inGrid (setIdx v s) a c = inGrid s a c := rfl
@[simp] theorem setIdx_pixelAt (v : Word) (s : State) (a c : Word) : pixelAt (setIdx v s) a c = pixelAt s a c := rfl
@[simp] theorem setIdx_msgRead (v : Word) (s : State) (j : Word) : msgRead (setIdx v s) j = msgRead s j := rfl

@[simp] theorem setTotal_width (v : Word) (s : State) : (setTotal v s).width = s.width := rfl
@[simp] theorem setTotal_height (v : Word) (s : State) : (setTotal v s).height = s.height := rfl
@[simp] theorem setTotal_msgLen (v : Word) (s : State) : (setTotal v s).msgLen = s.msgLen := rfl
@[simp] theorem setTotal_total (v : Word) (s : State) : (setTotal v s).total = v := rfl
@[simp] theorem setTotal_idx (v : Word) (s : State) : (setTotal v s).idx = s.idx := rfl
@[simp] theorem setTotal_opa (v : Word) (s : State) : (setTotal v s).opa = s.opa := rfl
@[simp] theorem setTotal_opb (v : Word) (s : State) : (setTotal v s).opb = s.opb := rfl
@[simp] theorem setTotal_res (v : Word) (s : State) : (setTotal v s).res = s.res := rfl
@[simp] theorem setTotal_xpos (v : Word) (s : State) : (setTotal v s).xpos = s.xpos := rfl
@[simp] theorem setTotal_ypos (v : Word) (s : State) : (setTotal v s).ypos = s.ypos := rfl
@[simp] theorem setTotal_status (v : Word) (s : State) : (setTotal v s).status = s.status := rfl
@[simp] theorem setTotal_pix (v : Word) (s : State) : (setTotal v s).pix = s.pix := rfl
@[simp] theorem setTotal_msg (v : Word) (s : State) : (setTotal v s).msg = s.msg := rfl
@[simp] theorem setTotal_agenda (v : Word) (s : State) : (setTotal v s).agenda = s.agenda := rfl
@[simp] theorem setTotal_seen (v : Word) (s : State) : (setTotal v s).seen = s.seen := rfl
@[simp] theorem setTotal_bus (v : Word) (s : State) : (setTotal v s).bus = s.bus := rfl
@[simp] theorem setTotal_cap (v : Word) (s : State) : cap (setTotal v s) = cap s := rfl
@[simp] theorem setTotal_inGrid (v : Word) (s : State) (a c : Word) : inGrid (setTotal v s) a c = inGrid s a c := rfl
@[simp] theorem setTotal_pixelAt (v : Word) (s : State) (a c : Word) : pixelAt (setTotal v s) a c = pixelAt s a c := rfl
@[simp] theorem setTotal_msgRead (v : Word) (s : State) (j : Word) : msgRead (setTotal v s) j = msgRead s j := rfl

@[simp] theorem setRes_width (v : Word) (s : State) : (setRes v s).width = s.width := rfl
@[simp] theorem setRes_height (v : Word) (s : State) : (setRes v s).height = s.height := rfl
@[simp] theorem setRes_msgLen (v : Word) (s : State) : (setRes v s).msgLen = s.msgLen := rfl
@[simp] theorem setRes_total (v : Word) (s : State) : (setRes v s).total = s.total := rfl
@[simp] theorem setRes_idx (v : Word) (s : State) : (setRes v s).idx = s.idx := rfl
@[simp] theorem setRes_opa (v : Word) (s : State) : (setRes v s).opa = s.opa := rfl
@[simp] theorem setRes_opb (v : Word) (s : State) : (setRes v s).opb = s.opb := rfl
@[simp] theorem setRes_res (v : Word) (s : State) : (setRes v s).res = v := rfl
@[simp] theorem setRes_xpos (v : Word) (s : State) : (setRes v s).xpos = s.xpos := rfl
@[simp] theorem setRes_ypos (v : Word) (s : State) : (setRes v s).ypos = s.ypos := rfl
@[simp] theorem setRes_status (v : Word) (s : State) : (setRes v s).status = s.status := rfl
@[simp] theorem setRes_pix (v : Word) (s : State) : (setRes v s).pix = s.pix := rfl
@[simp] theorem setRes_msg (v : Word) (s : State) : (setRes v s).msg = s.msg := rfl
@[simp] theorem setRes_agenda (v : Word) (s : State) : (setRes v s).agenda = s.agenda := rfl
@[simp] theorem setRes_seen (v : Word) (s : State) : (setRes v s).seen = s.seen := rfl
@[simp] theorem setRes_bus (v : Word) (s : State) : (setRes v s).bus = s.bus := rfl
@[simp] theorem setRes_cap (v : Word) (s : State) : cap (setRes v s) = cap s := rfl
@[simp] theorem setRes_inGrid (v : Word) (s : State) (a c : Word) : inGrid (setRes v s) a c = inGrid s a c := rfl
@[simp] theorem setRes_pixelAt (v : Word) (s : State) (a c : Word) : pixelAt (setRes v s) a c = pixelAt s a c := rfl
@[simp] theorem setRes_msgRead (v : Word) (s : State) (j : Word) : msgRead (setRes v s) j = msgRead s j := rfl

@[simp] theorem setMsgLen_width (v : Word) (s : State) : (setMsgLen v s).width = s.width := rfl
@[simp] theorem setMsgLen_height (v : Word) (s : State) : (setMsgLen v s).height = s.height := rfl
@[simp] theorem setMsgLen_msgLen (v : Word) (s : State) : (setMsgLen v s).msgLen = v := rfl
@[simp] theorem setMsgLen_total (v : Word) (s : State) : (setMsgLen v s).total = s.total := rfl
@[simp] theorem setMsgLen_idx (v : Word) (s : State) : (setMsgLen v s).idx = s.idx := rfl
@[simp] theorem setMsgLen_opa (v : Word) (s : State) : (setMsgLen v s).opa = s.opa := rfl
@[simp] theorem setMsgLen_opb (v : Word) (s : State) : (setMsgLen v s).opb = s.opb := rfl
@[simp] theorem setMsgLen_res (v : Word) (s : State) : (setMsgLen v s).res = s.res := rfl
@[simp] theorem setMsgLen_xpos (v : Word) (s : State) : (setMsgLen v s).xpos = s.xpos := rfl
@[simp] theorem setMsgLen_ypos (v : Word) (s : State) : (setMsgLen v s).ypos = s.ypos := rfl
@[simp] theorem setMsgLen_status (v : Word) (s : State) : (setMsgLen v s).status = s.status := rfl
@[simp] theorem setMsgLen_pix (v : Word) (s : State) : (setMsgLen v s).pix = s.pix := rfl
@[simp] theorem setMsgLen_msg (v : Word) (s : State) : (setMsgLen v s).msg = s.msg := rfl
@[simp] theorem setMsgLen_agenda (v : Word) (s : State) : (setMsgLen v s).agenda = s.agenda := rfl
@[simp] theorem setMsgLen_seen (v : Word) (s : State) : (setMsgLen v s).seen = s.seen := rfl
@[simp] theorem setMsgLen_bus (v : Word) (s : State) : (setMsgLen v s).bus = s.bus := rfl
@[simp] theorem setMsgLen_cap (v : Word) (s : State) : cap (setMsgLen v s) = cap s := rfl
@[simp] theorem setMsgLen_inGrid (v : Word) (s : State) (a c : Word) : inGrid (setMsgLen v s) a c = inGrid s a c := rfl
@[simp] theorem setMsgLen_pixelAt (v : Word) (s : State) (a c : Word) : pixelAt (setMsgLen v s) a c = pixelAt s a c := rfl
@[simp] theorem setMsgLen_msgRead (v : Word) (s : State) (j : Word) : msgRead (setMsgLen v s) j = msgRead s j := rfl

@[simp] theorem setPos_width (x y : Word) (s : State) : (setPos x y s).width = s.width := rfl
@[simp] theorem setPos_height (x y : Word) (s : State) : (setPos x y s).height = s.height := rfl
@[simp] theorem setPos_msgLen (x y : Word) (s : State) : (setPos x y s).msgLen = s.msgLen := rfl
@[simp] theorem setPos_total (x y : Word) (s : State) : (setPos x y s).total = s.total := rfl
@[simp] theorem setPos_idx (x y : Word) (s : State) : (setPos x y s).idx = s.idx := rfl
@[simp] theorem setPos_opa (x y : Word) (s : State) : (setPos x y s).opa = s.opa := rfl
@[simp] theorem setPos_opb (x y : Word) (s : State) : (setPos x y s).opb = s.opb := rfl
@[simp] theorem setPos_res (x y : Word) (s : State) : (setPos x y s).res = s.res := rfl
@[simp] theorem setPos_xpos (x y : Word) (s : State) : (setPos x y s).xpos = x := rfl
@[simp] theorem setPos_ypos (x y : Word) (s : State) : (setPos x y s).ypos = y := rfl
@[simp] theorem setPos_status (x y : Word) (s : State) : (setPos x y s).status = s.status := rfl
@[simp] theorem setPos_pix (x y : Word) (s : State) : (setPos x y s).pix = s.pix := rfl
@[simp] theorem setPos_msg (x y : Word) (s : State) : (setPos x y s).msg = s.msg := rfl
@[simp] theorem setPos_agenda (x y : Word) (s : State) : (setPos x y s).agenda = s.agenda := rfl
@[simp] theorem setPos_seen (x y : Word) (s : State) : (setPos x y s).seen = s.seen := rfl
@[simp] theorem setPos_bus (x y : Word) (s : State) : (setPos x y s).bus = s.bus := rfl
@[simp] theorem setPos_cap (x y : Word) (s : State) : cap (setPos x y s) = cap s := rfl
@[simp] theorem setPos_inGrid (x y : Word) (s : State) (a c : Word) : inGrid (setPos x y s) a c = inGrid s a c := rfl
@[simp] theorem setPos_pixelAt (x y : Word) (s : State) (a c : Word) : pixelAt (setPos x y s) a c = pixelAt s a c := rfl
@[simp] theorem setPos_msgRead (x y : Word) (s : State) (j : Word) : msgRead (setPos x y s) j = msgRead s j := rfl

@[simp] theorem storePixel_width (s : State) (x y : Word) (v : Pixel) : (storePixel s x y v).width = s.width := rfl
@[simp] theorem storePixel_height (s : State) (x y : Word) (v : Pixel) : (storePixel s x y v).height = s.height := rfl
@[simp] theorem storePixel_msgLen (s : State) (x y : Word) (v : Pixel) : (storePixel s x y v).msgLen = s.msgLen := rfl
@[simp] theorem storePixel_total (s : State) (x y : Word) (v : Pixel) : (storePixel s x y v).total = s.total := rfl
@[simp] theorem storePixel_idx (s : State) (x y : Word) (v : Pixel) : (storePixel s x y v).idx = s.idx := rfl
@[simp] theorem storePixel_opa (s : State) (x y : Word) (v : Pixel) : (storePixel s x y v).opa = s.opa := rfl
@[simp] theorem storePixel_opb (s : State) (x y : Word) (v : Pixel) : (storePixel s x y v).opb = s.opb := rfl
@[simp] theorem storePixel_res (s : State) (x y : Word) (v : Pixel) : (storePixel s x y v).res = s.res := rfl
@[simp] theorem storePixel_xpos (s : State) (x y : Word) (v : Pixel) : (storePixel s x y v).xpos = s.xpos := rfl
@[simp] theorem storePixel_ypos (s : State) (x y : Word) (v : Pixel) : (storePixel s x y v).ypos = s.ypos := rfl
@[simp] theorem storePixel_status (s : State) (x y : Word) (v : Pixel) : (storePixel s x y v).status = s.status := rfl
@[simp] theorem storePixel_pix (s : State) (x y : Word) (v : Pixel) : (storePixel s x y v).pix = s.pix.write (pixKey x y) v := rfl
@[simp] theorem storePixel_msg (s : State) (x y : Word) (v : Pixel) : (storePixel s x y v).msg = s.msg := rfl
@[simp] theorem storePixel_agenda (s : State) (x y : Word) (v : Pixel) : (storePixel s x y v).agenda = s.agenda := rfl
@[simp] theorem storePixel_seen (s : State) (x y : Word) (v : Pixel) : (storePixel s x y v).seen = s.seen := rfl
@[simp] theorem storePixel_bus (s : State) (x y : Word) (v : Pixel) : (storePixel s x y v).bus = s.bus := rfl
@[simp] theorem storePixel_cap (s : State) (x y : Word) (v : Pixel) : cap (storePixel s x y v) = cap s := rfl
@[simp] theorem storePixel_inGrid (s : State) (x y : Word) (v : Pixel) (a c : Word) : inGrid (storePixel s x y v) a c = inGrid s a c := rfl
@[simp] theorem storePixel_msgRead (s : State) (x y : Word) (v : Pixel) (j : Word) : msgRead (storePixel s x y v) j = msgRead s j := rfl

@[simp] theorem msgWrite_width (s : State) (a : Word) (v : Byte) : (msgWrite s a v).width = s.width := rfl
@[simp] theorem msgWrite_height (s : State) (a : Word) (v : Byte) : (msgWrite s a v).height = s.height := rfl
@[simp] theorem msgWrite_msgLen (s : State) (a : Word) (v : Byte) : (msgWrite s a v).msgLen = s.msgLen := rfl
@[simp] theorem msgWrite_total (s : State) (a : Word) (v : Byte) : (msgWrite s a v).total = s.total := rfl
@[simp] theorem msgWrite_idx (s : State) (a : Word) (v : Byte) : (msgWrite s a v).idx = s.idx := rfl
@[simp] theorem msgWrite_opa (s : State) (a : Word) (v : Byte) : (msgWrite s a v).opa = s.opa := rfl
@[simp] theorem msgWrite_opb (s : State) (a : Word) (v : Byte) : (msgWrite s a v).opb = s.opb := rfl
@[simp] theorem msgWrite_res (s : State) (a : Word) (v : Byte) : (msgWrite s a v).res = s.res := rfl
@[simp] theorem msgWrite_xpos (s : State) (a : Word) (v : Byte) : (msgWrite s a v).xpos = s.xpos := rfl
@[simp] theorem msgWrite_ypos (s : State) (a : Word) (v : Byte) : (msgWrite s a v).ypos = s.ypos := rfl
@[simp] theorem msgWrite_status (s : State) (a : Word) (v : Byte) : (msgWrite s a v).status = s.status := rfl
@[simp] theorem msgWrite_pix (s : State) (a : Word) (v : Byte) : (msgWrite s a v).pix = s.pix := rfl
@[simp] theorem msgWrite_msg (s : State) (a : Word) (v : Byte) : (msgWrite s a v).msg = s.msg.write a.toNat v := rfl
@[simp] theorem msgWrite_agenda (s : State) (a : Word) (v : Byte) : (msgWrite s a v).agenda = s.agenda := rfl
@[simp] theorem msgWrite_seen (s : State) (a : Word) (v : Byte) : (msgWrite s a v).seen = s.seen := rfl
@[simp] theorem msgWrite_bus (s : State) (a : Word) (v : Byte) : (msgWrite s a v).bus = s.bus := rfl
@[simp] theorem msgWrite_cap (s : State) (a : Word) (v : Byte) : cap (msgWrite s a v) = cap s := rfl
@[simp] theorem msgWrite_inGrid (s : State) (a : Word) (v : Byte) (b c : Word) : inGrid (msgWrite s a v) b c = inGrid s b c := rfl
@[simp] theorem msgWrite_pixelAt (s : State) (a : Word) (v : Byte) (b c : Word) : pixelAt (msgWrite s a v) b c = pixelAt s b c := rfl

@[simp] theorem recordSeen_width (v : Seen) (s : State) : (recordSeen v s).width = s.width := rfl
@[simp] theorem recordSeen_height (v : Seen) (s : State) : (recordSeen v s).height = s.height := rfl
@[simp] theorem recordSeen_msgLen (v : Seen) (s : State) : (recordSeen v s).msgLen = s.msgLen := rfl
@[simp] theorem recordSeen_total (v : Seen) (s : State) : (recordSeen v s).total = s.total := rfl
@[simp] theorem recordSeen_idx (v : Seen) (s : State) : (recordSeen v s).idx = s.idx := rfl
@[simp] theorem recordSeen_opa (v : Seen) (s : State) : (recordSeen v s).opa = s.opa := rfl
@[simp] theorem recordSeen_opb (v : Seen) (s : State) : (recordSeen v s).opb = s.opb := rfl
@[simp] theorem recordSeen_res (v : Seen) (s : State) : (recordSeen v s).res = s.res := rfl
@[simp] theorem recordSeen_xpos (v : Seen) (s : State) : (recordSeen v s).xpos = s.xpos := rfl
@[simp] theorem recordSeen_ypos (v : Seen) (s : State) : (recordSeen v s).ypos = s.ypos := rfl
@[simp] theorem recordSeen_status (v : Seen) (s : State) : (recordSeen v s).status = s.status := rfl
@[simp] theorem recordSeen_pix (v : Seen) (s : State) : (recordSeen v s).pix = s.pix := rfl
@[simp] theorem recordSeen_msg (v : Seen) (s : State) : (recordSeen v s).msg = s.msg := rfl
@[simp] theorem recordSeen_agenda (v : Seen) (s : State) : (recordSeen v s).agenda = s.agenda := rfl
@[simp] theorem recordSeen_seen (v : Seen) (s : State) : (recordSeen v s).seen = v :: s.seen := rfl
@[simp] theorem recordSeen_bus (v : Seen) (s : State) : (recordSeen v s).bus = s.bus := rfl
@[simp] theorem recordSeen_cap (v : Seen) (s : State) : cap (recordSeen v s) = cap s := rfl
@[simp] theorem recordSeen_inGrid (v : Seen) (s : State) (a c : Word) : inGrid (recordSeen v s) a c = inGrid s a c := rfl
@[simp] theorem recordSeen_pixelAt (v : Seen) (s : State) (a c : Word) : pixelAt (recordSeen v s) a c = pixelAt s a c := rfl
@[simp] theorem recordSeen_msgRead (v : Seen) (s : State) (j : Word) : msgRead (recordSeen v s) j = msgRead s j := rfl

@[simp] theorem recordBus_width (as : List Access) (s : State) : (recordBus as s).width = s.width := rfl
@[simp] theorem recordBus_height (as : List Access) (s : State) : (recordBus as s).height = s.height := rfl
@[simp] theorem recordBus_msgLen (as : List Access) (s : State) : (recordBus as s).msgLen = s.msgLen := rfl
@[simp] theorem recordBus_total (as : List Access) (s : State) : (recordBus as s).total = s.total := rfl
@[simp] theorem recordBus_idx (as : List Access) (s : State) : (recordBus as s).idx = s.idx := rfl
@[simp] theorem recordBus_opa (as : List Access) (s : State) : (recordBus as s).opa = s.opa := rfl
@[simp] theorem recordBus_opb (as : List Access) (s : State) : (recordBus as s).opb = s.opb := rfl
@[simp] theorem recordBus_res (as : List Access) (s : State) : (recordBus as s).res = s.res := rfl
@[simp] theorem recordBus_xpos (as : List Access) (s : State) : (recordBus as s).xpos = s.xpos := rfl
@[simp] theorem recordBus_ypos (as : List Access) (s : State) : (recordBus as s).ypos = s.ypos := rfl
@[simp] theorem recordBus_status (as : List Access) (s : State) : (recordBus as s).status = s.status := rfl
@[simp] theorem recordBus_pix (as : List Access) (s : State) : (recordBus as s).pix = s.pix := rfl
@[simp] theorem recordBus_msg (as : List Access) (s : State) : (recordBus as s).msg = s.msg := rfl
@[simp] theorem recordBus_agenda (as : List Access) (s : State) : (recordBus as s).agenda = s.agenda := rfl
@[simp] theorem recordBus_seen (as : List Access) (s : State) : (recordBus as s).seen = s.seen := rfl
@[simp] theorem recordBus_bus (as : List Access) (s : State) : (recordBus as s).bus = as.reverse ++ s.bus := rfl
@[simp] theorem recordBus_cap (as : List Access) (s : State) : cap (recordBus as s) = cap s := rfl
@[simp] theorem recordBus_inGrid (as : List Access) (s : State) (a c : Word) : inGrid (recordBus as s) a c = inGrid s a c := rfl
@[simp] theorem recordBus_pixelAt (as : List Access) (s : State) (a c : Word) : pixelAt (recordBus as s) a c = pixelAt s a c := rfl
@[simp] theorem recordBus_msgRead (as : List Access) (s : State) (j : Word) : msgRead (recordBus as s) j = msgRead s j := rfl

@[simp] theorem setAgenda_width (as : List Turn) (s : State) : (setAgenda as s).width = s.width := rfl
@[simp] theorem setAgenda_height (as : List Turn) (s : State) : (setAgenda as s).height = s.height := rfl
@[simp] theorem setAgenda_msgLen (as : List Turn) (s : State) : (setAgenda as s).msgLen = s.msgLen := rfl
@[simp] theorem setAgenda_total (as : List Turn) (s : State) : (setAgenda as s).total = s.total := rfl
@[simp] theorem setAgenda_idx (as : List Turn) (s : State) : (setAgenda as s).idx = s.idx := rfl
@[simp] theorem setAgenda_opa (as : List Turn) (s : State) : (setAgenda as s).opa = s.opa := rfl
@[simp] theorem setAgenda_opb (as : List Turn) (s : State) : (setAgenda as s).opb = s.opb := rfl
@[simp] theorem setAgenda_res (as : List Turn) (s : State) : (setAgenda as s).res = s.res := rfl
@[simp] theorem setAgenda_xpos (as : List Turn) (s : State) : (setAgenda as s).xpos = s.xpos := rfl
@[simp] theorem setAgenda_ypos (as : List Turn) (s : State) : (setAgenda as s).ypos = s.ypos := rfl
@[simp] theorem setAgenda_status (as : List Turn) (s : State) : (setAgenda as s).status = s.status := rfl
@[simp] theorem setAgenda_pix (as : List Turn) (s : State) : (setAgenda as s).pix = s.pix := rfl
@[simp] theorem setAgenda_msg (as : List Turn) (s : State) : (setAgenda as s).msg = s.msg := rfl
@[simp] theorem setAgenda_agenda (as : List Turn) (s : State) : (setAgenda as s).agenda = as := rfl
@[simp] theorem setAgenda_seen (as : List Turn) (s : State) : (setAgenda as s).seen = s.seen := rfl
@[simp] theorem setAgenda_bus (as : List Turn) (s : State) : (setAgenda as s).bus = s.bus := rfl
@[simp] theorem setAgenda_cap (as : List Turn) (s : State) : cap (setAgenda as s) = cap s := rfl
@[simp] theorem setAgenda_inGrid (as : List Turn) (s : State) (a c : Word) : inGrid (setAgenda as s) a c = inGrid s a c := rfl
@[simp] theorem setAgenda_pixelAt (as : List Turn) (s : State) (a c : Word) : pixelAt (setAgenda as s) a c = pixelAt s a c := rfl
@[simp] theorem setAgenda_msgRead (as : List Turn) (s : State) (j : Word) : msgRead (setAgenda as s) j = msgRead s j := rfl

@[simp] theorem resetEvent_width (s : State) : (resetEvent s).width = 0#32 := rfl
@[simp] theorem resetEvent_height (s : State) : (resetEvent s).height = 0#32 := rfl
@[simp] theorem resetEvent_msgLen (s : State) : (resetEvent s).msgLen = 0#32 := rfl
@[simp] theorem resetEvent_total (s : State) : (resetEvent s).total = 0#32 := rfl
@[simp] theorem resetEvent_idx (s : State) : (resetEvent s).idx = 0#32 := rfl
@[simp] theorem resetEvent_opa (s : State) : (resetEvent s).opa = 0#32 := rfl
@[simp] theorem resetEvent_opb (s : State) : (resetEvent s).opb = 0#32 := rfl
@[simp] theorem resetEvent_res (s : State) : (resetEvent s).res = 0#32 := rfl
@[simp] theorem resetEvent_xpos (s : State) : (resetEvent s).xpos = 0#32 := rfl
@[simp] theorem resetEvent_ypos (s : State) : (resetEvent s).ypos = 0#32 := rfl
@[simp] theorem resetEvent_status (s : State) : (resetEvent s).status = Status.cleared := rfl
@[simp] theorem resetEvent_pix (s : State) : (resetEvent s).pix = s.pix := rfl
@[simp] theorem resetEvent_msg (s : State) : (resetEvent s).msg = s.msg := rfl
@[simp] theorem resetEvent_agenda (s : State) : (resetEvent s).agenda = s.agenda := rfl
@[simp] theorem resetEvent_seen (s : State) : (resetEvent s).seen = s.seen := rfl
@[simp] theorem resetEvent_bus (s : State) : (resetEvent s).bus = s.bus := rfl
@[simp] theorem resetEvent_pixelAt (s : State) (a c : Word) : pixelAt (resetEvent s) a c = pixelAt s a c := rfl
@[simp] theorem resetEvent_msgRead (s : State) (j : Word) : msgRead (resetEvent s) j = msgRead s j := rfl

@[simp] theorem fail_eq (e : ErrCode) (s : State) : fail e s = setStatus (Status.ended e) s := rfl
@[simp] theorem finish_eq (s : State) : finish s = setStatus (Status.ended .none) s := rfl
@[simp] theorem start_eq (p : Phase) (v : Word) (s : State) :
    start p v s = setStatus (Status.running p) (setIdx 0#32 (setTotal v s)) := rfl

@[simp] theorem ended_phase (e : ErrCode) : (Status.ended e).phase = .idle := rfl
@[simp] theorem ended_done (e : ErrCode) : (Status.ended e).done = true := rfl
@[simp] theorem ended_err (e : ErrCode) : (Status.ended e).err = e := rfl
@[simp] theorem ended_busy (e : ErrCode) : (Status.ended e).busy = false := rfl
@[simp] theorem running_phase (p : Phase) : (Status.running p).phase = p := rfl
@[simp] theorem running_done (p : Phase) : (Status.running p).done = false := rfl
@[simp] theorem running_err (p : Phase) : (Status.running p).err = .none := rfl

/-- BUSY is 0 exactly in phase IDLE (10_state.md R23). -/
theorem busy_eq_false_iff (t : Status) : t.busy = false ↔ t.phase = .idle := by
  cases t with | mk p d e => cases p <;> simp [Status.busy]

theorem busy_eq_true_iff (t : Status) : t.busy = true ↔ t.phase ≠ .idle := by
  cases t with | mk p d e => cases p <;> simp [Status.busy]

end Sys2Proof.Machine
end

