-- ==== Sys2Proof/Laws/Ops.lean ====
section
/-! SUPPORT. What each shared operation does, said once: the busy gate, the grid check, one pixel or byte after a write, and
the address generator over natural numbers. -/

namespace Sys2Proof.Machine

theorem whenIdle_of_idle {s : State} (h : s.status.busy = false) (k : State → Answer) : whenIdle s k = k s := by
  simp [whenIdle, h]

theorem whenIdle_of_busy {s : State} (h : s.status.busy = true) (k : State → Answer) : whenIdle s k = .next s := by
  simp [whenIdle, h]

/-- All the gate can do: nothing while busy, `k` while idle. -/
theorem whenIdle_next {s t : State} {k : State → Answer} (h : whenIdle s k = .next t) :
    s.status.busy = true ∧ t = s ∨ s.status.busy = false ∧ k s = .next t := by
  unfold whenIdle at h
  split at h
  · next hb => exact .inl ⟨hb, by cases h; rfl⟩
  · next hb => exact .inr ⟨by simpa using hb, h⟩

theorem inGrid_iff {s : State} {x y : Word} :
    inGrid s x y = true ↔ x.toNat < s.width.toNat ∧ y.toNat < s.height.toNat := by
  simp [inGrid]

theorem pixRead_of_inGrid {s : State} {x y : Word} (h : inGrid s x y = true) : pixRead s x y = .ok (pixelAt s x y) := by
  simp [pixRead, h]

theorem pixRead_outside {s : State} {x y : Word} (h : inGrid s x y = false) :
    pixRead s x y = .error (.pixOutsideGrid x y) := by
  simp [pixRead, h]

theorem pixWrite_of_inGrid {s : State} {x y : Word} (h : inGrid s x y = true) (v : Pixel) :
    pixWrite s x y v = .ok (storePixel s x y v) := by
  simp [pixWrite, h]

theorem pixWrite_outside {s : State} {x y : Word} (h : inGrid s x y = false) (v : Pixel) :
    pixWrite s x y v = .error (.pixOutsideGrid x y) := by
  simp [pixWrite, h]

theorem pixKey_lt (x y : Word) : pixKey x y < 2 ^ 64 := by
  have := x.isLt
  have := y.isLt
  unfold pixKey
  omega

/-- Different coordinates have different keys. -/
theorem pixKey_inj {x y x' y' : Word} (h : pixKey x y = pixKey x' y') : x = x' ∧ y = y' := by
  have := x.isLt
  have := x'.isLt
  unfold pixKey at h
  exact ⟨BitVec.eq_of_toNat_eq (by omega), BitVec.eq_of_toNat_eq (by omega)⟩

theorem pixelAt_storePixel {s : State} (h : s.pix.Pairwise (fun c d => c.1 < d.1)) (x y x' y' : Word) (v : Pixel) :
    pixelAt (storePixel s x y v) x' y' = if x' = x ∧ y' = y then v else pixelAt s x' y' := by
  have := Memory.read_write s.pix h (pixKey x y) (pixKey x' y') v
  unfold pixelAt
  rw [storePixel_pix, this]
  by_cases hk : x' = x ∧ y' = y
  · simp [hk]
  · rw [if_neg hk, if_neg fun e => hk (pixKey_inj e)]

theorem msgRead_msgWrite {s : State} (h : s.msg.Pairwise (fun c d => c.1 < d.1)) (a b : Word) (v : Byte) :
    msgRead (msgWrite s a v) b = if b = a then v else msgRead s b := by
  unfold msgRead
  rw [msgWrite_msg, Memory.read_write s.msg h]
  by_cases hb : b = a
  · simp [hb]
  · rw [if_neg hb, if_neg fun e => hb (BitVec.eq_of_toNat_eq e)]

@[simp] theorem coord_fst_toNat (i w : Word) : (coord i w).1.toNat = i.toNat % w.toNat := BitVec.toNat_umod

@[simp] theorem coord_snd_toNat (i w : Word) : (coord i w).2.toNat = i.toNat / w.toNat := BitVec.toNat_udiv

/-- An index below CAP lies in the grid (41_addrgen.md R141). -/
theorem coord_inGrid {s : State} {i : Word} (h : i.toNat < cap s) :
    inGrid s (coord i s.width).1 (coord i s.width).2 = true := by
  have hw : 0 < s.width.toNat := Nat.pos_of_ne_zero fun e => by simp [cap, e] at h
  rw [inGrid_iff, coord_fst_toNat, coord_snd_toNat]
  exact ⟨Nat.mod_lt _ hw, Nat.div_lt_of_lt_mul h⟩

/-- Every memory operation keeps the canonical form of both memories. -/
theorem storePixel_wf {s : State} (h : s.pix.wf (2 ^ 64)) (x y : Word) (v : Pixel) :
    (storePixel s x y v).pix.wf (2 ^ 64) := Memory.wf_write h (pixKey_lt x y) v

theorem msgWrite_wf {s : State} (h : s.msg.wf (2 ^ 32)) (a : Word) (v : Byte) : (msgWrite s a v).msg.wf (2 ^ 32) :=
  Memory.wf_write h a.isLt v

end Sys2Proof.Machine
end

