-- ==== Sys2Proof/Laws/Sequencer.lean ====
section
/-! SUPPORT. The sequencer's steps and the step of the machine, said once: which step is enabled in which phase, and what each
one answers inside the grid. -/

namespace Sys2Proof.Machine

theorem step_nil {s : State} (h : s.agenda = []) : step s = seqTurn s := by simp [step, h]

theorem step_cons {s : State} {t : Turn} {rest : List Turn} (h : s.agenda = t :: rest) :
    step s = runTurn t (setAgenda rest s) := by simp [step, h]

/-- All a step can do: the sequencer's turn with nothing on the agenda, or the agenda's first turn. -/
theorem step_cases {s : State} {r : Answer} (h : step s = r) :
    s.agenda = [] ∧ seqTurn s = r ∨ ∃ t rest, s.agenda = t :: rest ∧ runTurn t (setAgenda rest s) = r := by
  cases ha : s.agenda with
  | nil => exact .inl ⟨rfl, by rw [← h, step_nil ha]⟩
  | cons t rest => exact .inr ⟨t, rest, rfl, by rw [← h, step_cons ha]⟩

theorem steps_zero (s : State) : steps 0 s = .next s := rfl

theorem steps_one (s : State) : steps 1 s = step s := by
  unfold steps
  cases step s <;> rfl

theorem steps_succ {s t : State} (h : step s = .next t) (k : Nat) : steps (k + 1) s = steps k t := by
  simp [steps, h]

/-- Runs compose. -/
theorem steps_add {s t : State} {j : Nat} (h : steps j s = .next t) (k : Nat) : steps (j + k) s = steps k t := by
  induction j generalizing s with
  | zero => rw [steps_zero] at h; cases h; simp
  | succ j ih =>
    cases hs : step s with
    | next u =>
      rw [steps_succ hs] at h
      rw [Nat.add_right_comm, steps_succ hs]
      exact ih h
    | fault f => simp [steps, hs] at h
    | refused r => simp [steps, hs] at h

theorem seqTurn_idle {s : State} (h : s.status.phase = .idle) : seqTurn s = .next s := by simp [seqTurn, h]
theorem seqTurn_enc {s : State} (h : s.status.phase = .enc) : seqTurn s = encStep s := by simp [seqTurn, h]
theorem seqTurn_decHdr {s : State} (h : s.status.phase = .decHdr) : seqTurn s = decHdrStep s := by simp [seqTurn, h]
theorem seqTurn_decBody {s : State} (h : s.status.phase = .decBody) : seqTurn s = decBodyStep s := by simp [seqTurn, h]

/-- The state after ENCODE's processing step (R152). -/
def encProcessed (s : State) : State :=
  recordBus (streamAccess s s.idx ++
      [.pixRead (coord s.idx s.width).1 (coord s.idx s.width).2 (pixelAt s (coord s.idx s.width).1 (coord s.idx s.width).2),
       .pixWrite (coord s.idx s.width).1 (coord s.idx s.width).2
        (embed (pixelAt s (coord s.idx s.width).1 (coord s.idx s.width).2) (streamByte s s.idx))])
    (setIdx (s.idx + 1#32) (storePixel s (coord s.idx s.width).1 (coord s.idx s.width).2
      (embed (pixelAt s (coord s.idx s.width).1 (coord s.idx s.width).2) (streamByte s s.idx))))

theorem encProcess_inGrid {s : State} (h : s.idx.toNat < cap s) : encProcess s = .next (encProcessed s) := by
  simp only [encProcess, pixRead_of_inGrid (coord_inGrid h), pixWrite_of_inGrid (coord_inGrid h), encProcessed]

theorem encProcess_next {s t : State} (h : encProcess s = .next t) : t = encProcessed s := by
  unfold encProcess at h
  cases hg : inGrid s (coord s.idx s.width).1 (coord s.idx s.width).2 with
  | false => simp [pixRead_outside hg] at h
  | true =>
    simp only [pixRead_of_inGrid hg, pixWrite_of_inGrid hg] at h
    cases h
    rfl

/-- The state after DECODE's header step (R172). -/
def decHeadered (s : State) : State :=
  recordBus [.pixRead (coord s.idx s.width).1 (coord s.idx s.width).2 (pixelAt s (coord s.idx s.width).1 (coord s.idx s.width).2)]
    (setIdx (s.idx + 1#32)
      (setTotal (shiftIn s.total (extract (pixelAt s (coord s.idx s.width).1 (coord s.idx s.width).2))) s))

theorem decHeader_inGrid {s : State} (h : s.idx.toNat < cap s) : decHeader s = .next (decHeadered s) := by
  simp only [decHeader, pixRead_of_inGrid (coord_inGrid h), decHeadered]

theorem decHeader_next {s t : State} (h : decHeader s = .next t) : t = decHeadered s := by
  unfold decHeader at h
  cases hg : inGrid s (coord s.idx s.width).1 (coord s.idx s.width).2 with
  | false => simp [pixRead_outside hg] at h
  | true =>
    simp only [pixRead_of_inGrid hg] at h
    cases h
    rfl

/-- The state after DECODE's body step (R174). -/
def decBodied (s : State) : State :=
  recordBus
    [.pixRead (coord s.idx s.width).1 (coord s.idx s.width).2 (pixelAt s (coord s.idx s.width).1 (coord s.idx s.width).2),
     .msgWrite (msgIndex s.idx) (extract (pixelAt s (coord s.idx s.width).1 (coord s.idx s.width).2))]
    (setIdx (s.idx + 1#32)
      (msgWrite s (msgIndex s.idx) (extract (pixelAt s (coord s.idx s.width).1 (coord s.idx s.width).2))))

theorem decBody_inGrid {s : State} (h : s.idx.toNat < cap s) : decBody s = .next (decBodied s) := by
  simp only [decBody, pixRead_of_inGrid (coord_inGrid h), decBodied]

theorem decBody_next {s t : State} (h : decBody s = .next t) : t = decBodied s := by
  unfold decBody at h
  cases hg : inGrid s (coord s.idx s.width).1 (coord s.idx s.width).2 with
  | false => simp [pixRead_outside hg] at h
  | true =>
    simp only [pixRead_of_inGrid hg] at h
    cases h
    rfl

/-- All the sequencer can do: nothing while idle, else the one enabled step of its phase (44_system.md R196, R200). -/
theorem seqTurn_cases {s t : State} (h : seqTurn s = .next t) :
    (s.status.phase = .idle ∧ t = s) ∨
    (s.status.phase = .enc ∧ s.idx.toNat < s.total.toNat ∧ t = encProcessed s) ∨
    (s.status.phase = .enc ∧ s.idx.toNat = s.total.toNat ∧ t = finish s) ∨
    (s.status.phase = .decHdr ∧ s.idx.toNat < 4 ∧ t = decHeadered s) ∨
    (s.status.phase = .decHdr ∧ s.idx.toNat = 4 ∧ cap s < s.total.toNat ∧ t = fail .outOfBounds s) ∨
    (s.status.phase = .decHdr ∧ s.idx.toNat = 4 ∧ s.total.toNat ≤ cap s ∧ t = setStatus (Status.running .decBody) s) ∨
    (s.status.phase = .decBody ∧ s.idx.toNat < s.total.toNat ∧ 4 ≤ s.idx.toNat ∧ t = decBodied s) ∨
    (s.status.phase = .decBody ∧ s.total.toNat ≤ s.idx.toNat ∧ t = finish (setMsgLen (decodedLength s.total) s)) := by
  cases hp : s.status.phase with
  | idle => rw [seqTurn_idle hp] at h; cases h; simp
  | enc =>
    rw [seqTurn_enc hp] at h
    unfold encStep at h
    split at h
    · next hl => simp [hl, encProcess_next h]
    · split at h
      · next he => cases h; simp [he]
      · cases h
  | decHdr =>
    rw [seqTurn_decHdr hp] at h
    unfold decHdrStep at h
    split at h
    · next hl => exact .inr (.inr (.inr (.inl ⟨rfl, hl, decHeader_next h⟩)))
    · split at h
      · next he =>
        unfold decHeaderFinish at h
        split at h
        · next hc => cases h; exact .inr (.inr (.inr (.inr (.inl ⟨rfl, he, hc, rfl⟩))))
        · next hc => cases h; exact .inr (.inr (.inr (.inr (.inr (.inl ⟨rfl, he, Nat.le_of_not_lt hc, rfl⟩)))))
      · cases h
  | decBody =>
    rw [seqTurn_decBody hp] at h
    unfold decBodyStep at h
    split at h
    · next hl => cases h; simp [hl]
    · next hl =>
      split at h
      · next h4 =>
        refine .inr (.inr (.inr (.inr (.inr (.inr (.inl ⟨rfl, Nat.lt_of_not_le hl, h4, decBody_next h⟩))))))
      · cases h

/-- A change of the resulting state, faults and refusals as they are. -/
def mapNext (f : State → State) : Answer → Answer
  | .next t => .next (f t)
  | .fault e => .fault e
  | .refused r => .refused r

/-- The sequencer does not read the agenda. -/
theorem seqTurn_setAgenda (l : List Turn) (s : State) : seqTurn (setAgenda l s) = mapNext (setAgenda l) (seqTurn s) := by
  simp only [seqTurn, encStep, decHdrStep, decBodyStep, encProcess, encFinish, decHeader, decHeaderFinish, decBody,
    decBodyFinish, pixRead, pixWrite, setAgenda_status, setAgenda_idx, setAgenda_total, setAgenda_width, setAgenda_inGrid,
    setAgenda_cap]
  cases s.status.phase <;> by_cases hg : inGrid s (coord s.idx s.width).1 (coord s.idx s.width).2 = true <;>
    by_cases hc : cap s < s.total.toNat <;> simp only [hg, hc, Bool.false_eq_true, if_true, if_false] <;> (try split_ifs) <;>
    first | rfl | (simp only [*, if_true, if_false]; rfl)

/-- The sequencer does not read what the host has seen. -/
theorem seqTurn_recordSeen (v : Seen) (s : State) : seqTurn (recordSeen v s) = mapNext (recordSeen v) (seqTurn s) := by
  simp only [seqTurn, encStep, decHdrStep, decBodyStep, encProcess, encFinish, decHeader, decHeaderFinish, decBody,
    decBodyFinish, pixRead, pixWrite, recordSeen_status, recordSeen_idx, recordSeen_total, recordSeen_width,
    recordSeen_inGrid, recordSeen_cap]
  cases s.status.phase <;> by_cases hg : inGrid s (coord s.idx s.width).1 (coord s.idx s.width).2 = true <;>
    by_cases hc : cap s < s.total.toNat <;> simp only [hg, hc, Bool.false_eq_true, if_true, if_false] <;> (try split_ifs) <;>
    first | rfl | (simp only [*, if_true, if_false]; rfl)

/-- The sequencer leaves the host's turns and records alone. -/
theorem seqTurn_host {s t : State} (h : seqTurn s = .next t) : t.agenda = s.agenda ∧ t.seen = s.seen := by
  rcases seqTurn_cases h with ⟨-, rfl⟩ | ⟨-, -, rfl⟩ | ⟨-, -, rfl⟩ | ⟨-, -, rfl⟩ | ⟨-, -, -, rfl⟩ | ⟨-, -, -, rfl⟩ |
    ⟨-, -, -, rfl⟩ | ⟨-, -, rfl⟩ <;> exact ⟨rfl, rfl⟩

/-- ENCODE's start check (R151). -/
theorem capacity_exceeded_iff (s : State) :
    (tooLong s || tooBig s) = true ↔ 2 ^ 32 - 1 < s.msgLen.toNat + 4 ∨ cap s < s.msgLen.toNat + 4 := by
  unfold tooLong tooBig total33
  rw [Bool.or_eq_true, decide_eq_true_iff, decide_eq_true_iff]
  rfl

theorem capacity_fits_iff (s : State) :
    (tooLong s || tooBig s) = false ↔ s.msgLen.toNat + 4 ≤ 2 ^ 32 - 1 ∧ s.msgLen.toNat + 4 ≤ cap s := by
  rw [← Bool.not_eq_true, capacity_exceeded_iff]
  omega

/-- All a command can do (44_system.md R193): nothing while busy; while idle, its own effect. -/
theorem exec_cases {i : Instr} {s t : State} (h : exec i s = .next t) :
    (s.status.busy = true ∧ t = s) ∨ (s.status.busy = false ∧
      ((i = .nop ∧ t = finish s) ∨
       (i = .encode ∧ (tooLong s || tooBig s) = true ∧ t = fail .capacityExceeded s) ∨
       (i = .encode ∧ (tooLong s || tooBig s) = false ∧ t = start .enc (BitVec.ofNat 32 (total33 s)) s) ∨
       (i = .decode ∧ cap s < 4 ∧ t = fail .outOfBounds s) ∨
       (i = .decode ∧ 4 ≤ cap s ∧ t = start .decHdr 0#32 s) ∨
       (i = .pack ∧ t = finish (setRes (zext32 (packWord (byteOperand s))) s)) ∨
       (i = .unpack ∧ t = finish (setRes (zext32 (unpack (tripleR s) (tripleG s) (tripleB s))) s)) ∨
       (i = .embed ∧ t = finish (setRes (zext32 (embed (pixelOperand s) (byteOperand s))) s)) ∨
       (i = .extract ∧ t = finish (setRes (zext32 (extract (pixelOperand s))) s)) ∨
       (i = .coord ∧ cap s ≤ (indexOperand s).toNat ∧ t = fail .outOfBounds s) ∨
       (i = .coord ∧ (indexOperand s).toNat < cap s ∧
         t = finish (setPos (coord (indexOperand s) s.width).1 (coord (indexOperand s) s.width).2 s)))) := by
  cases i with
  | nop =>
    simp only [exec, execNop] at h
    rcases whenIdle_next h with h | ⟨hb, h⟩
    · exact .inl h
    · cases h; simp [hb]
  | encode =>
    simp only [exec, execEncode] at h
    rcases whenIdle_next h with h | ⟨hb, h⟩
    · exact .inl h
    · split at h
      · next hc => cases h; simp [hb, -Bool.or_eq_true, hc]
      · next hc => cases h; simp only [Bool.not_eq_true] at hc; simp [hb, -Bool.or_eq_false_iff, hc]
  | decode =>
    simp only [exec, execDecode] at h
    rcases whenIdle_next h with h | ⟨hb, h⟩
    · exact .inl h
    · split at h
      · next hc => cases h; exact .inr ⟨hb, by simp [show cap s < 4 from hc]⟩
      · next hc => cases h; exact .inr ⟨hb, by simp [show 4 ≤ cap s from Nat.le_of_not_lt hc]⟩
  | pack =>
    simp only [exec, execPack] at h
    rcases whenIdle_next h with h | ⟨hb, h⟩
    · exact .inl h
    · cases h; simp [hb]
  | unpack =>
    simp only [exec, execUnpack] at h
    rcases whenIdle_next h with h | ⟨hb, h⟩
    · exact .inl h
    · cases h; simp [hb]
  | embed =>
    simp only [exec, execEmbed] at h
    rcases whenIdle_next h with h | ⟨hb, h⟩
    · exact .inl h
    · cases h; simp [hb]
  | extract =>
    simp only [exec, execExtract] at h
    rcases whenIdle_next h with h | ⟨hb, h⟩
    · exact .inl h
    · cases h; simp [hb]
  | coord =>
    simp only [exec, execCoord] at h
    rcases whenIdle_next h with h | ⟨hb, h⟩
    · exact .inl h
    · split at h
      · next hc => cases h; simp [hb, hc]
      · next hc => cases h; simp [hb, Nat.lt_of_not_le hc]

end Sys2Proof.Machine
end

