-- ==== Sys2Proof/Laws/Codec.lean ====
section
/-! SUPPORT. The bit-packer as concatenations of bit fields, the index arithmetic of the sequencer, and the invariant under
the host's own records. -/

namespace Sys2Proof.Machine

/-- PackWord as the concatenation of 40_bitpack.md R121. -/
theorem packWord_eq (b : Byte) :
    packWord b = 0#5 ++ b.extractLsb' 5 3 ++ 0#5 ++ b.extractLsb' 2 3 ++ 0#6 ++ b.extractLsb' 0 2 := by
  revert b
  decide +kernel

/-- Unpack as the concatenation of R122. -/
theorem unpack_eq (r g : BitVec 3) (b : BitVec 2) : unpack r g b = r ++ g ++ b := by
  revert r g b
  decide +kernel

/-- Extract as the concatenation of R124. -/
theorem extract_eq (p : Pixel) : extract p = p.extractLsb' 16 3 ++ p.extractLsb' 8 3 ++ p.extractLsb' 0 2 :=
  unpack_eq _ _ _

/-- Embed as a concatenation: the high bits of each channel from the pixel, the low ones from the byte (R123). -/
theorem embed_eq (p : Pixel) (b : Byte) :
    embed p b = p.extractLsb' 19 5 ++ b.extractLsb' 5 3 ++ p.extractLsb' 11 5 ++ b.extractLsb' 2 3 ++
      p.extractLsb' 2 6 ++ b.extractLsb' 0 2 := by
  rw [embed, packWord_eq]
  apply BitVec.eq_of_getLsbD_eq
  intro i hi
  simp only [BitVec.getLsbD_append, BitVec.getLsbD_extractLsb', BitVec.getLsbD_and, BitVec.getLsbD_or,
    BitVec.getLsbD_ofNat]
  interval_cases i <;> simp [Nat.testBit]

/-- IDX + 1 does not wrap below a 32-bit bound (10_state.md R28). -/
theorem succ_toNat {i : Word} {n : Nat} (h : i.toNat < n) (hn : n < 2 ^ 32) : (i + 1#32).toNat = i.toNat + 1 := by
  rw [BitVec.toNat_add]
  exact Nat.mod_eq_of_lt (by simp; omega)

theorem msgIndex_toNat {i : Word} (h : 4 ≤ i.toNat) : (msgIndex i).toNat = i.toNat - 4 := by
  have := i.isLt
  unfold msgIndex
  rw [BitVec.toNat_sub]
  simp
  omega

/-- A pixel of the grid is the one at stream index `y × WIDTH + x`, and at no other (20_memory.md R63). -/
theorem coord_eq_iff {s : State} {i x y : Word} (hg : inGrid s x y = true) :
    (x = (coord i s.width).1 ∧ y = (coord i s.width).2) ↔ i.toNat = y.toNat * s.width.toNat + x.toNat := by
  have hg := inGrid_iff.1 hg
  have hw : 0 < s.width.toNat := by omega
  constructor
  · rintro ⟨h1, h2⟩
    have h1 := congrArg BitVec.toNat h1
    have h2 := congrArg BitVec.toNat h2
    rw [coord_fst_toNat] at h1
    rw [coord_snd_toNat] at h2
    rw [h1, h2, Nat.mul_comm]
    exact (Nat.div_add_mod _ _).symm
  · intro h
    constructor <;> apply BitVec.eq_of_toNat_eq
    · rw [coord_fst_toNat, h, Nat.mul_comm, Nat.mul_add_mod, Nat.mod_eq_of_lt hg.1]
    · rw [coord_snd_toNat, h, Nat.mul_comm, Nat.mul_add_div hw, Nat.div_eq_of_lt hg.1]
      rfl

/-- The pixel the sequencer addresses at index `i` is the one at stream index `i`. -/
theorem pixelAt_coord (s : State) (i : Word) :
    pixelAt s (coord i s.width).1 (coord i s.width).2 = pixelAtIndex s i.toNat := by
  unfold pixelAtIndex
  congr 1 <;> apply BitVec.eq_of_toNat_eq
  · rw [coord_fst_toNat, BitVec.toNat_ofNat]
    exact (Nat.mod_eq_of_lt (lt_of_le_of_lt (Nat.mod_le _ _) i.isLt)).symm
  · rw [coord_snd_toNat, BitVec.toNat_ofNat]
    exact (Nat.mod_eq_of_lt (lt_of_le_of_lt (Nat.div_le_self _ _) i.isLt)).symm

theorem setAgenda_inv {s : State} (h : Inv s) (as : List Turn) : Inv (setAgenda as s) :=
  ⟨h.pix, h.msg, h.status, h.phase, h.res⟩

theorem recordSeen_inv {s : State} (h : Inv s) (v : Seen) : Inv (recordSeen v s) :=
  ⟨h.pix, h.msg, h.status, h.phase, h.res⟩

theorem ended_legal (e : ErrCode) : (Status.ended e).Legal := by simp [Status.Legal]

theorem running_legal (p : Phase) : (Status.running p).Legal := by simp [Status.Legal]

end Sys2Proof.Machine
end

