-- ==== Sys2Proof/Laws/PerInstr.lean ====
section
/-! SUPPORT. The statements made for each command: its word decodes to it, it is well formed, and its word is an opcode
nibble under a zero field (30_encoding.md R90, R91). -/

namespace Sys2Proof.Laws.RoundTrip

/-- The word of `i` is a 4-bit opcode with ZERO = 0 and decodes to `i`. -/
def Statement (i : Instr) : Prop :=
  i.wellFormed = true ∧ decode (encode i) = .ok i ∧ encode i = (opcodeField (encode i)).setWidth 32

theorem nop : Statement .nop := by unfold Statement; decide
theorem encode : Statement .encode := by unfold Statement; decide
theorem decode : Statement .decode := by unfold Statement; decide
theorem pack : Statement .pack := by unfold Statement; decide
theorem unpack : Statement .unpack := by unfold Statement; decide
theorem embed : Statement .embed := by unfold Statement; decide
theorem extract : Statement .extract := by unfold Statement; decide
theorem coord : Statement .coord := by unfold Statement; decide

end Sys2Proof.Laws.RoundTrip
end

