-- ==== Sys2Proof/Tests/Slice0.lean ====
section
/-! SUPPORT. The author's tests. Expected values are those of 95_test_vectors.md (named V and P) or worked by hand from the
rules named; a `witness_` theorem shows states and operands that meet the hypotheses of the obligation it is named after. -/

namespace Sys2Proof.Tests

open Sys2Proof.Machine

/-! ### Small states -/

/-- The next state of an answer, if it is one. -/
def nextOf : Answer → Option State
  | .next s => some s
  | _ => none

/-- One thing read off the next state. -/
def after {α : Type} (f : State → α) (r : Answer) : Option α := (nextOf r).map f

/-- The fault of an answer, if it is one. -/
def faultOf : Answer → Option Fault
  | .fault f => some f
  | _ => none

/-- The registers reset, with an agenda. -/
def withTurns (s : State) (as : List Turn) : State := { s with agenda := as }

/-- PIX holding the listed pixels of a grid `w` wide, in stream-index order from index `i` on. -/
def gridFrom (w : Nat) : Nat → List Pixel → Memory 24 → Memory 24
  | _, [], m => m
  | i, p :: ps, m => gridFrom w (i + 1) ps (m.write (i / w * 2 ^ 32 + i % w) p)

/-- An idle machine with a grid and a message. -/
def machine (w h : Word) (pixels : List Pixel) (len : Word) (bytes : Memory 8) : State :=
  { State.reset with width := w, height := h, msgLen := len, pix := gridFrom w.toNat 0 pixels [], msg := bytes }

/-- OPA and OPB set, STATUS showing an old CapacityExceeded (0x12). -/
def operands (a b : Word) : State :=
  { State.reset with opa := a, opb := b, status := Status.ended .capacityExceeded }

/-- COORD's registers. -/
def position (w h a : Word) : State := { State.reset with width := w, height := h, opa := a, xpos := 77#32, ypos := 88#32 }

/-- V30 at its start: 3 × 3, "Hi". -/
def v30 : State :=
  machine 3#32 3#32 [0xFFFFFF#24, 0x808080#24, 0x123456#24, 0x000000#24, 0xABCDEF#24, 0x070703#24, 0x555555#24,
    0xAAAAAA#24, 0xFEDCBA#24] 2#32 [(0, 0x48#8), (1, 0x69#8)]

/-- V30 before step `i + 1`, over a grid: phase ENC, TOTAL = 6. -/
def v30At (i : Word) (pixels : List Pixel) : State :=
  { machine 3#32 3#32 pixels 2#32 [(0, 0x48#8), (1, 0x69#8)] with
    total := 6#32, idx := i, status := Status.running .enc }

/-- V30 before step 4 (IDX = 3). -/
def v30Step4 : State :=
  v30At 3#32 [0xF8F8FC#24, 0x808080#24, 0x103054#24, 0x000000#24, 0xABCDEF#24, 0x070703#24, 0x555555#24, 0xAAAAAA#24,
    0xFEDCBA#24]

/-- V30 before step 5 (IDX = 4). -/
def v30Step5 : State :=
  v30At 4#32 [0xF8F8FC#24, 0x808080#24, 0x103054#24, 0x000102#24, 0xABCDEF#24, 0x070703#24, 0x555555#24, 0xAAAAAA#24,
    0xFEDCBA#24]

/-- The grid at the end of V30. -/
def hidden : List Pixel :=
  [0xF8F8FC#24, 0x808080#24, 0x103054#24, 0x000102#24, 0xAACAEC#24, 0x030201#24, 0x555555#24, 0xAAAAAA#24, 0xFEDCBA#24]

/-- V30 before its finish step. -/
def v30Step7 : State := v30At 6#32 hidden

/-- V31 at its start: the grid of V30's end, MSG = EE EE EE, MSG_LEN = 0. -/
def v31 : State := machine 3#32 3#32 hidden 0#32 [(0, 0xEE#8), (1, 0xEE#8), (2, 0xEE#8)]

/-- V31 in phase `p`, at index `i`, with TOTAL = `t`. -/
def v31At (p : Phase) (i t : Word) : State := { v31 with total := t, idx := i, status := Status.running p }

/-- V35 at its start: 2 × 2, the empty message, an exact fit. -/
def v35 : State := machine 2#32 2#32 [0x111111#24, 0x222222#24, 0x333333#24, 0x444444#24] 0#32 []

/-- V39 with the last pixel `p` (2 × 2, MSG_LEN = 9). -/
def v39 (p : Pixel) : State := machine 2#32 2#32 [0#24, 0#24, 0#24, p] 9#32 []

/-- V32 before its header-finish step (10 × 10; only the prefix pixels listed). -/
def v32Finish : State :=
  { machine 10#32 10#32 [0x808080#24, 0x808383#24, 0x828082#24, 0x828080#24] 7#32 [(0, 0xEE#8)] with
    total := 1000000#32, idx := 4#32, status := Status.running .decHdr }

/-! ### Well-formedness (30_encoding.md R91, R105) -/

/-- V41b, V41d: the check refuses a reserved opcode and a word with a ZERO bit set. -/
theorem test_wordLegal_refuses : wordLegal 0x00000003#32 = false ∧ wordLegal 0x00000011#32 = false := by decide

theorem test_wordLegal_admits : wordLegal 0x00000000#32 = true ∧ wordLegal 0x00000008#32 = true := by decide

/-- R105: LOADGRID 3, 3 with eight pixel words is ill formed, with nine it is not. -/
theorem test_loadGridFits :
    loadGridFits 3#32 3#32 (List.replicate 8 0#24) = false ∧ loadGridFits 3#32 3#32 (List.replicate 9 0#24) = true := by
  decide

/-- R26: a message of 2^32 bytes has no 32-bit MSG_LEN. -/
theorem test_loadMsgFits_refuses : loadMsgFits (List.replicate (2 ^ 32) 0#8) = false := by
  simp only [loadMsgFits, List.length_replicate]
  decide

theorem test_instr_wellFormed : Instr.coord.wellFormed = true := by decide

/-! ### Decoding, each word written out from R91 -/

theorem test_decode_nop : decode 0b00000000000000000000000000000000#32 = .ok .nop := by rfl
theorem test_decode_encode : decode 0b00000000000000000000000000000001#32 = .ok .encode := by rfl
theorem test_decode_decode : decode 0b00000000000000000000000000000010#32 = .ok .decode := by rfl
theorem test_decode_pack : decode 0b00000000000000000000000000000100#32 = .ok .pack := by rfl
theorem test_decode_unpack : decode 0b00000000000000000000000000000101#32 = .ok .unpack := by rfl
theorem test_decode_embed : decode 0b00000000000000000000000000000110#32 = .ok .embed := by rfl
theorem test_decode_extract : decode 0b00000000000000000000000000000111#32 = .ok .extract := by rfl
theorem test_decode_coord : decode 0b00000000000000000000000000001000#32 = .ok .coord := by rfl

/-- R91: 0x3 and 0x9 are reserved (V41b). -/
theorem test_decode_reserved :
    decode 0x00000003#32 = .error .reservedOpcode ∧ decode 0x00000009#32 = .error .reservedOpcode := ⟨rfl, rfl⟩

/-- V41d, V41e: a legal opcode under a ZERO bit is illegal. -/
theorem test_decode_zero_field :
    decode 0x00000011#32 = .error .zeroFieldSet ∧ decode 0x80000000#32 = .error .zeroFieldSet := ⟨rfl, rfl⟩

theorem test_decodeTableWord : decodeTableWord 32 6 = some .embed ∧ decodeTableWord 32 3 = none := by decide

/-! ### The commands, run as the first step after the state -/

/-- V41f: NOP clears a stale ERR. -/
theorem test_nop_clears_err :
    after (·.status.word) (step ((operands 0#32 0#32).withFetchWord 32 0)) = some 0x00000002#32 := by decide

/-- V3 and its corner: OPB = 0xFFFFFF48. -/
theorem test_pack_v3 :
    after (·.res) (step ((operands 0#32 0xFFFFFF48#32).withFetchWord 32 4)) = some 0x00020200#32 := by decide

/-- V5: the byte 0xA5. -/
theorem test_pack_v5 : after (·.res) (exec .pack (operands 0#32 0xA5#32)) = some 0x00050101#32 := by decide

/-- V10. -/
theorem test_unpack_v10 :
    after (·.res) (step ((operands 0x00030201#32 0#32).withFetchWord 32 5)) = some 0x00000069#32 := by decide

/-- V13: all ignored bits set. -/
theorem test_unpack_v13 : after (·.res) (exec .unpack (operands 0xFFF8F8FC#32 0#32)) = some 0#32 := by decide

/-- V16 with OPA[31:24] set. -/
theorem test_embed_v16 :
    after (·.res) (step ((operands 0xAB123456#32 0xA5#32).withFetchWord 32 6)) = some 0x00153155#32 := by decide

/-- The corner 0xC8C8C8 with 0x06. -/
theorem test_embed_corner : after (·.res) (exec .embed (operands 0xC8C8C8#32 0x06#32)) = some 0x00C8C9CA#32 := by decide

/-- V23. -/
theorem test_extract_v23 :
    after (·.res) (step ((operands 0x00ABCDEF#32 0#32).withFetchWord 32 7)) = some 0x00000077#32 := by decide

/-- V24. -/
theorem test_extract_v24 : after (·.res) (exec .extract (operands 0x00010101#32 0#32)) = some 0x00000025#32 := by decide

/-- V29a: CAP needs more than 32 bits. -/
theorem test_coord_v29a :
    after (fun s => (s.xpos, s.ypos)) (step ((position 0x10000#32 0x10000#32 0xFFFFFFFF#32).withFetchWord 32 8)) =
      some (0xFFFF#32, 0xFFFF#32) := by decide

/-- V25d: OPA = CAP; XPOS and YPOS unchanged. -/
theorem test_coord_v25d :
    after (fun s => (s.status.word, s.xpos, s.ypos)) (exec .coord (position 3#32 3#32 9#32)) =
      some (0x00000022#32, 77#32, 88#32) := by decide

/-- V38e: a 32-bit product would wrap to 0 and fail. -/
theorem test_encode_v38e :
    after (fun s => (s.status.word, s.total)) (step ((machine 0x10000#32 0x10000#32 [] 0#32 []).withFetchWord 32 1)) =
      some (0x00000005#32, 4#32) := by decide

/-- V38d: a 32-bit sum would wrap to 3 and pass. -/
theorem test_encode_v38d :
    after (·.status.word) (exec .encode (machine 0xFFFFFFFF#32 0xFFFFFFFF#32 [] 0xFFFFFFFF#32 [])) =
      some 0x00000012#32 := by decide

/-- V40d: four pixels pass the start check. -/
theorem test_decode_v40d :
    after (fun s => (s.status.word, s.total, s.idx))
      (step ({ machine 4#32 1#32 [] 0#32 [] with total := 5#32, idx := 5#32 }.withFetchWord 32 2)) =
      some (0x00000009#32, 0#32, 0#32) := by decide

/-- V40b: three pixels do not. -/
theorem test_decode_v40b :
    after (·.status.word) (exec .decode (machine 3#32 1#32 [] 0#32 [])) = some 0x00000022#32 := by decide

/-- V41b, V41h: an illegal word gives 0x32 while idle and is ignored while busy. -/
theorem test_illegal_word :
    after (·.status.word) (step (State.reset.withFetchWord 32 3)) = some 0x00000032#32 ∧
    after (·.status.word) (step (v30Step4.withFetchWord 32 3)) = some 0x00000005#32 := by decide

/-! ### The sequencer's steps -/

/-- V30 step 4: the byte 0x06 of TOTAL into pixel (0, 1). -/
theorem test_enc_step4 :
    after (fun s => (pixelAt s 0#32 1#32, s.idx)) (seqTurn v30Step4) = some (0x000102#24, 4#32) := by decide

/-- V30 step 5: MSG[0] = 0x48 into pixel (1, 1). -/
theorem test_enc_step5 :
    after (fun s => (pixelAt s 1#32 1#32, pixelAt s 0#32 1#32)) (seqTurn v30Step5) =
      some (0xAACAEC#24, 0x000102#24) := by decide

/-- V30 step 5: one MsgRead, then PixRead, then PixWrite (20_memory.md R75). -/
theorem test_enc_step5_bus :
    after (·.bus.reverse) (seqTurn v30Step5) =
      some [.msgRead 0#32 0x48#8, .pixRead 1#32 1#32 0xABCDEF#24, .pixWrite 1#32 1#32 0xAACAEC#24] := by decide

/-- V30 step 7: the finish step. -/
theorem test_enc_finish :
    after (fun s => (s.status.word, s.idx)) (seqTurn v30Step7) = some (0x00000002#32, 6#32) := by decide

/-- V31 step 4: the last header step. -/
theorem test_dec_header :
    after (fun s => (s.total, s.idx)) (seqTurn (v31At .decHdr 3#32 0#32)) = some (6#32, 4#32) := by decide

/-- V32: the header finish with a claim of 1,000,000 on 100 pixels. -/
theorem test_dec_header_finish_v32 :
    after (fun s => (s.status.word, s.msgLen, s.total)) (seqTurn v32Finish) =
      some (0x00000022#32, 7#32, 0x000F4240#32) := by decide

/-- V31 step 7: the second body step. -/
theorem test_dec_body :
    after (fun s => (msgRead s 1#32, msgRead s 0#32, s.idx)) (seqTurn (v31At .decBody 5#32 6#32)) =
      some (0x69#8, 0xEE#8, 6#32) := by decide

/-- V31 step 8 and V39b: MSG_LEN = TOTAL - 4, and 0 below 4. -/
theorem test_dec_body_finish :
    after (·.msgLen) (seqTurn (v31At .decBody 6#32 6#32)) = some 2#32 ∧
    after (·.msgLen) (seqTurn (v31At .decBody 4#32 3#32)) = some 0#32 := by decide

/-- 42_encoder.md R153: IDX > TOTAL is unreachable; the model stops there (log 10). -/
theorem test_no_step_enabled : faultOf (seqTurn (v30At 7#32 hidden)) = some .noStepEnabled := by decide

/-! ### The host -/

/-- V41g: WR WIDTH while busy is ignored. -/
theorem test_write_while_busy :
    after (fun s => (s.width, s.status.word)) (step (withTurns v30Step4 [.host (.wr 2#4 99#32)])) =
      some (3#32, 0x00000005#32) := by decide

/-- V41i: WR WIDTH while idle stores and leaves STATUS. -/
theorem test_write_while_idle :
    after (fun s => (s.width, s.status.word)) (step (withTurns (operands 0#32 0#32) [.host (.wr 2#4 5#32)])) =
      some (5#32, 0x00000012#32) := by decide

/-- R105: LOADMSG "48 69". -/
theorem test_loadMsg :
    loadMsg [0x48#8, 0x69#8] =
      [.host (.msgWr 0#32 0x48#8), .host (.msgWr 1#32 0x69#8), .host (.wr 4#4 2#32)] := by decide

/-- R105: LOADGRID 2, 2 puts the third pixel at (0, 1). -/
theorem test_loadGrid :
    (loadGrid 2#32 2#32 [1#24, 2#24, 3#24, 4#24]).drop 4 =
      [.host (.pixWr 0#32 1#32 3#24), .host (.pixWr 1#32 1#32 4#24)] := by decide

/-- R105: WAIT reads STATUS, and while BUSY = 1 a sequencer step and another poll follow (log 3). -/
theorem test_wait_polls :
    after (fun s => (s.seen, s.agenda)) (step (withTurns v30Step7 [.wait])) =
      some ([.reg 1#4 0x00000005#32], [.seq, .wait]) := by decide

/-- P5, its RESET: STATUS and IDX read 0, the prefix pixel stays. -/
theorem test_reset_mid_encode :
    after (fun s => (s.status.word, s.idx, pixelAt s 0#32 1#32)) (step (withTurns v30Step5 [.host .reset])) =
      some (0#32, 0#32, 0x000102#24) := by decide

/-- R83: writing what an unlisted byte reads as removes the entry. -/
theorem test_memory_canonical : Memory.write [(0, 0x48#8), (1, 0x69#8)] 0 0#8 = [(1, 0x69#8)] := by decide

/-! ### Witnesses of the obligations' hypotheses: states -/

theorem v30_inv : Inv v30 := ⟨by decide, by decide, by unfold Status.Legal; decide, trivial, by decide⟩

theorem v35_inv : Inv v35 := ⟨by decide, by decide, by unfold Status.Legal; decide, trivial, by decide⟩

theorem v31_inv : Inv v31 := ⟨by decide, by decide, by unfold Status.Legal; decide, trivial, by decide⟩

theorem v39_inv : Inv (v39 0x000101#24) := ⟨by decide, by decide, by unfold Status.Legal; decide, trivial, by decide⟩

theorem operands_inv : Inv (operands 0#32 0#32) :=
  ⟨by decide, by decide, by unfold Status.Legal; decide, trivial, by decide⟩

theorem v30Step4_inv : Inv v30Step4 :=
  ⟨by decide, by decide, by unfold Status.Legal; decide,
    show 6 = 2 + 4 ∧ 6 ≤ 3 * 3 ∧ 3 ≤ 6 by decide, by decide⟩

theorem v30Step5_inv : Inv v30Step5 :=
  ⟨by decide, by decide, by unfold Status.Legal; decide,
    show 6 = 2 + 4 ∧ 6 ≤ 3 * 3 ∧ 4 ≤ 6 by decide, by decide⟩

theorem v30Step7_inv : Inv v30Step7 :=
  ⟨by decide, by decide, by unfold Status.Legal; decide,
    show 6 = 2 + 4 ∧ 6 ≤ 3 * 3 ∧ 6 ≤ 6 by decide, by decide⟩

/-- V31 before its last header step. -/
def v31Header : State := v31At .decHdr 3#32 0#32

theorem v31Header_inv : Inv v31Header :=
  ⟨by decide, by decide, by unfold Status.Legal; decide,
    show 4 ≤ 3 * 3 ∧ 3 ≤ 4 ∧ 0 < 256 ^ 3 by decide, by decide⟩

/-- V31 before its header-finish step. -/
def v31HeaderFinish : State := v31At .decHdr 4#32 6#32

theorem v31HeaderFinish_inv : Inv v31HeaderFinish :=
  ⟨by decide, by decide, by unfold Status.Legal; decide,
    show 4 ≤ 3 * 3 ∧ 4 ≤ 4 ∧ 6 < 256 ^ 4 by decide, by decide⟩

theorem v32Finish_inv : Inv v32Finish :=
  ⟨by decide, by decide, by unfold Status.Legal; decide,
    show 4 ≤ 10 * 10 ∧ 4 ≤ 4 ∧ 1000000 < 256 ^ 4 by decide, by decide⟩

/-- V31 before its last body step. -/
def v31Body : State := v31At .decBody 5#32 6#32

theorem v31Body_inv : Inv v31Body :=
  ⟨by decide, by decide, by unfold Status.Legal; decide,
    show 4 ≤ 3 * 3 ∧ 6 ≤ 3 * 3 ∧ 4 ≤ 5 ∧ 5 ≤ max 6 4 by decide, by decide⟩

/-- V31 before its body-finish step. -/
def v31BodyFinish : State := v31At .decBody 6#32 6#32

theorem v31BodyFinish_inv : Inv v31BodyFinish :=
  ⟨by decide, by decide, by unfold Status.Legal; decide,
    show 4 ≤ 3 * 3 ∧ 6 ≤ 3 * 3 ∧ 4 ≤ 6 ∧ 6 ≤ max 6 4 by decide, by decide⟩

/-- V39b before its body-finish step: a claimed length of 3. -/
def v39Finish : State := { v39 0x000003#24 with total := 3#32, idx := 4#32, status := Status.running .decBody }

/-- An answer that is a next state, from its test. -/
theorem next_of {r : Answer} (h : (nextOf r).isSome = true) : ∃ t, r = .next t := by
  cases r with
  | next t => exact ⟨t, rfl⟩
  | fault f => cases h
  | refused f => cases h

/-! ### Witnesses: the step and the commands -/

theorem witness_StepRunsTheDecodedCommand :
    (withTurns State.reset [.host (.wr 0#4 4#32)]).agenda = .host (.wr 0#4 4#32) :: [] ∧
    decode 4#32 = .ok .pack ∧ Instr.pack.wellFormed = true ∧ decodeTableWord 32 8 = some .coord :=
  ⟨rfl, rfl, rfl, by decide⟩

theorem witness_AgendaDecidesTheAgent :
    State.reset.agenda = [] ∧ (withTurns State.reset [.seq]).agenda = .seq :: [] ∧
    (withTurns State.reset [.host .reset]).agenda = .host .reset :: [] := ⟨rfl, rfl, rfl⟩

theorem witness_ResetEventClearsRegisters : (withTurns v30Step5 [.host .reset]).agenda = .host .reset :: [] := rfl

theorem witness_LegalWordsExactly : ∃ i, decode 8#32 = .ok i := ⟨.coord, rfl⟩

theorem witness_EveryStepKeepsTheInvariant : Inv v30Step4 ∧ ∃ t, step v30Step4 = .next t :=
  ⟨v30Step4_inv, next_of (by decide)⟩

/-- An idle, a busy and a failed state. -/
theorem witness_StatusShowsOnlyEightValues :
    Inv v30 ∧ (Inv v31Body ∧ (regRead 1#4 v31Body).getLsbD 0 = true) ∧
    (Inv (operands 0#32 0#32) ∧ (regRead 1#4 (operands 0#32 0#32)).extractLsb' 4 4 ≠ 0#4) :=
  ⟨v30_inv, ⟨v31Body_inv, by decide⟩, operands_inv, by decide⟩

/-- The last index of each phase. -/
theorem witness_EveryBlockAccessIsInTheGrid :
    (Inv v30Step5 ∧ v30Step5.status.phase = .enc ∧ v30Step5.idx.toNat < v30Step5.total.toNat) ∧
    (Inv v31Header ∧ v31Header.status.phase = .decHdr ∧ v31Header.idx.toNat < 4) ∧
    (Inv v31Body ∧ v31Body.status.phase = .decBody ∧ v31Body.idx.toNat < v31Body.total.toNat) :=
  ⟨⟨v30Step5_inv, by decide⟩, ⟨v31Header_inv, by decide⟩, v31Body_inv, by decide⟩

theorem witness_SequencerNeverStops : Inv v30 ∧ Inv v30Step7 ∧ Inv v31HeaderFinish ∧ Inv v31BodyFinish :=
  ⟨v30_inv, v30Step7_inv, v31HeaderFinish_inv, v31BodyFinish_inv⟩

/-- A host read of the last pixel of the grid, just before a header step, and an idle host's write outside the grid
(log 7). -/
theorem witness_DutifulStepsComplete :
    (Inv (withTurns v31Header [.host (.pixRd 2#32 2#32)]) ∧
      hostDutyKept (withTurns v31Header [.host (.pixRd 2#32 2#32)])) ∧
    (Inv (withTurns v30 [.host (.pixWr 3#32 2#32 0x123456#24)]) ∧
      hostDutyKept (withTurns v30 [.host (.pixWr 3#32 2#32 0x123456#24)])) :=
  ⟨⟨setAgenda_inv v31Header_inv _, by
    refine ⟨?_, ?_⟩ <;> decide⟩, setAgenda_inv v30_inv _, rfl⟩

/-- Each row of the table, with the status after it. -/
theorem witness_PhaseChangesOnlyByTheTable :
    (Inv (withTurns v30 [commandTurn .encode]) ∧
      after (·.status.phase) (step (withTurns v30 [commandTurn .encode])) = some .enc) ∧
    (Inv (withTurns v31 [commandTurn .decode]) ∧
      after (·.status.phase) (step (withTurns v31 [commandTurn .decode])) = some .decHdr) ∧
    (Inv v30Step7 ∧ after (·.status.phase) (step v30Step7) = some .idle) ∧
    (Inv v32Finish ∧ after (·.status.phase) (step v32Finish) = some .idle) ∧
    (Inv v31HeaderFinish ∧ after (·.status.phase) (step v31HeaderFinish) = some .decBody) ∧
    (Inv v31BodyFinish ∧ after (·.status.phase) (step v31BodyFinish) = some .idle) ∧
    (Inv (withTurns v30Step5 [.host .reset]) ∧
      after (·.status.phase) (step (withTurns v30Step5 [.host .reset])) = some .idle) :=
  ⟨⟨setAgenda_inv v30_inv _, by decide⟩, ⟨setAgenda_inv v31_inv _, by decide⟩, ⟨v30Step7_inv, by decide⟩,
    ⟨v32Finish_inv, by decide⟩, ⟨v31HeaderFinish_inv, by decide⟩, ⟨v31BodyFinish_inv, by decide⟩,
    ⟨setAgenda_inv v30Step5_inv _, by decide⟩⟩

theorem witness_NopWritesStatusOnly : (operands 0#32 0#32).status.busy = false := by decide

theorem witness_PackWritesTheTripleWord : (operands 0#32 0xFFFFFF48#32).status.busy = false := by decide

theorem witness_UnpackJoinsTheTriple : (operands 0xFFF8F8FC#32 0#32).status.busy = false := by decide

theorem witness_EmbedReplacesTheLowBits : (operands 0xAB123456#32 0xA5#32).status.busy = false := by decide

theorem witness_ExtractJoinsTheLowBits : (operands 0x00ABCDEF#32 0#32).status.busy = false := by decide

/-- OPA = CAP - 1, OPA = CAP, and the empty grid (V25c, V25d, V28a). -/
theorem witness_CoordWritesColumnAndRow :
    ((position 3#32 3#32 8#32).status.busy = false ∧ (8#32 : Word).toNat < (3#32 : Word).toNat * (3#32 : Word).toNat) ∧
    ((position 3#32 3#32 9#32).status.busy = false ∧ (3#32 : Word).toNat * (3#32 : Word).toNat ≤ (9#32 : Word).toNat) ∧
    ((position 0#32 5#32 0#32).status.busy = false ∧ (0#32 : Word).toNat * (5#32 : Word).toNat ≤ (0#32 : Word).toNat) := by
  decide

theorem witness_IllegalWordWritesStatusOnly :
    (withTurns v30 [.host (.wr 0#4 0x11#32)]).status.busy = false ∧
    (withTurns v30 [.host (.wr 0#4 0x11#32)]).agenda = .host (.wr 0#4 0x11#32) :: [] ∧
    decode 0x11#32 = .error .zeroFieldSet := ⟨by decide, rfl, rfl⟩

theorem witness_CommandWhileBusyIsIgnored :
    (withTurns v30Step4 [.host (.wr 0#4 0x3#32)]).status.busy = true ∧
    (withTurns v30Step4 [.host (.wr 0#4 0x3#32)]).agenda = .host (.wr 0#4 0x3#32) :: [] := ⟨by decide, rfl⟩

/-- A command of each clause of the frame. -/
theorem witness_CommandFrame :
    (∃ t, exec .nop v30 = .next t) ∧ (∃ t, exec .encode v30 = .next t) ∧ (∃ t, exec .embed v30 = .next t) ∧
    (∃ t, exec .coord v30 = .next t) :=
  ⟨next_of (by decide), next_of (by decide), next_of (by decide), next_of (by decide)⟩

theorem witness_ErrorsWriteStatusOnly :
    ((position 3#32 3#32 9#32).status.busy = false ∧
      after (·.status.err) (exec .coord (position 3#32 3#32 9#32)) = some .outOfBounds) ∧
    (v32Finish.status.busy = true ∧ v32Finish.status.Legal ∧
      after (·.status.err) (seqTurn v32Finish) = some .outOfBounds) :=
  ⟨by decide, by decide, v32Finish_inv.status, by decide⟩

/-! ### Witnesses: memory and the port -/

/-- The last pixel of the grid. -/
theorem witness_PixelWriteReadsBack : Inv v30 ∧ inGrid v30 2#32 2#32 = true := ⟨v30_inv, by decide⟩

theorem witness_MessageWriteReadsBack : Inv v30 ∧ (2#32 : Word) ≠ 0xFFFFFFFF#32 := ⟨v30_inv, by decide⟩

/-- The last pixel, and one step outside on either side. -/
theorem witness_OutsideTheGridIsAFault :
    ((2#32 : Word).toNat < v30.width.toNat ∧ (2#32 : Word).toNat < v30.height.toNat) ∧
    ¬((3#32 : Word).toNat < v30.width.toNat ∧ (2#32 : Word).toNat < v30.height.toNat) ∧
    ¬((2#32 : Word).toNat < v30.width.toNat ∧ (3#32 : Word).toNat < v30.height.toNat) := by decide

/-- The last pixel of the grid, and one outside it, to which a write completes as well (log 7). -/
theorem witness_HostAccessWhileIdle :
    v30.status.busy = false ∧ Inv v30 ∧ inGrid v30 2#32 2#32 = true ∧ inGrid v30 3#32 2#32 = false ∧
    after (fun s => pixelAt s 3#32 2#32) (hostStep (.pixWr 3#32 2#32 0x123456#24) v30) = some 0x123456#24 :=
  ⟨by decide, v30_inv, by decide, by decide, by decide⟩

theorem witness_HostAccessWhileBusy :
    v30Step4.status.phase = .enc ∧ (v31Header.status.phase = .decHdr ∧ inGrid v31Header 2#32 2#32 = true) ∧
    v31Body.status.phase = .decBody := by decide

theorem witness_RegisterReadReturnsTheValue : 12 ≤ (12#4 : RegNum).toNat ∧ 12 ≤ (15#4 : RegNum).toNat := by decide

theorem witness_RegisterWriteStoresOrIsIgnored :
    v30.status.busy = false ∧ v30Step4.status.busy = true ∧
    (1#4 : RegNum).toNat ∈ [1, 5, 6, 9, 10, 11, 12, 13, 14, 15] ∧
    (15#4 : RegNum).toNat ∈ [1, 5, 6, 9, 10, 11, 12, 13, 14, 15] := by decide

/-- The agenda of one host read and one sequencer step, in both orders, before V30 step 5. -/
theorem witness_HostReadsCommuteWithTheSequencer :
    (∃ t, steps 2 { v30Step5 with agenda := [.host (.msgRd 0#32), .seq] } = .next t) ∧
    (∃ u, steps 2 { v30Step5 with agenda := [.seq, .host (.msgRd 0#32)] } = .next u) ∧
    (∃ t, steps 2 { v31Body with agenda := [.host (.pixRd 2#32 1#32), .seq] } = .next t) ∧
    (∃ u, steps 2 { v31Body with agenda := [.seq, .host (.pixRd 2#32 1#32)] } = .next u) ∧
    (∃ t, steps 2 { v30Step5 with agenda := [.host (.rd 6#4), .seq] } = .next t) ∧
    (∃ u, steps 2 { v30Step5 with agenda := [.seq, .host (.rd 6#4)] } = .next u) :=
  ⟨next_of (by decide), next_of (by decide), next_of (by decide), next_of (by decide), next_of (by decide),
    next_of (by decide)⟩

/-! ### Witnesses: the functions -/

/-- Two pixels and two bytes that agree in one lane only, for each lane. -/
theorem witness_LanesAreIndependent :
    (red 0x12FFFF#24 = red 0x123456#24 ∧ (0xA5#8 : Byte).extractLsb' 5 3 = (0xBF#8 : Byte).extractLsb' 5 3) ∧
    (green 0xFF34FF#24 = green 0x123456#24 ∧ (0xA5#8 : Byte).extractLsb' 2 3 = (0x07#8 : Byte).extractLsb' 2 3) ∧
    (blue 0xFFFF56#24 = blue 0x123456#24 ∧ (0xA5#8 : Byte).extractLsb' 0 2 = (0x01#8 : Byte).extractLsb' 0 2) := by decide

theorem witness_CoordIsDivision : 1 ≤ (1#32 : Word).toNat := by decide

/-- The last index inside three rows of three, and the first outside. -/
theorem witness_CoordRange :
    1 ≤ (3#32 : Word).toNat ∧ (8#32 : Word).toNat < (3#32 : Word).toNat * 3 ∧
    (3#32 : Word).toNat * 3 ≤ (9#32 : Word).toNat := by decide

/-- The last 32-bit index of a width of 2^16, and an index equal to itself. -/
theorem witness_CoordInverse :
    1 ≤ (0x10000#32 : Word).toNat ∧ (0xFFFF#32 : Word).toNat < (0x10000#32 : Word).toNat ∧
    (0xFFFF#32 : Word).toNat * (0x10000#32 : Word).toNat + (0xFFFF#32 : Word).toNat < 2 ^ 32 ∧
    coord 9#32 3#32 = coord 9#32 3#32 := by decide

/-- The last index with a successor; a row end and a place inside a row. -/
theorem witness_CoordCounts :
    1 ≤ (3#32 : Word).toNat ∧ (0xFFFFFFFE#32 : Word).toNat + 1 < 2 ^ 32 ∧ (coord 2#32 3#32).1 = 3#32 - 1#32 ∧
    ¬((coord 1#32 3#32).1 = 3#32 - 1#32) := by decide

/-! ### Witnesses: ENCODE -/

/-- V38d (too long), V37b (too big by one), V37c (an exact fit), V38c (the longest). -/
theorem witness_EncodeStart :
    ((machine 0xFFFFFFFF#32 0xFFFFFFFF#32 [] 0xFFFFFFFF#32 []).status.busy = false ∧
      2 ^ 32 - 1 < (0xFFFFFFFF#32 : Word).toNat + 4) ∧
    ((machine 4#32 2#32 [] 5#32 []).status.busy = false ∧
      (4#32 : Word).toNat * (2#32 : Word).toNat < (5#32 : Word).toNat + 4) ∧
    ((4#32 : Word).toNat + 4 ≤ 2 ^ 32 - 1 ∧ (4#32 : Word).toNat + 4 ≤ (4#32 : Word).toNat * (2#32 : Word).toNat) ∧
    ((0xFFFFFFFB#32 : Word).toNat + 4 ≤ 2 ^ 32 - 1 ∧
      (0xFFFFFFFB#32 : Word).toNat + 4 ≤ (0xFFFFFFFF#32 : Word).toNat * (1#32 : Word).toNat) := by decide

theorem witness_NoPartialWritesOnFailure :
    (∃ t, exec .encode (machine 4#32 2#32 [] 5#32 []) = .next t) ∧
    (v30Step4.status.phase = .enc ∧ v30Step4.status.Legal ∧ ∃ t, seqTurn v30Step4 = .next t) :=
  ⟨next_of (by decide), by decide, v30Step4_inv.status, next_of (by decide)⟩

/-- The source's two cases: 1 × 1 with the empty message, and 2 × 2 with it. -/
theorem witness_CapacityBoundary :
    ((machine 1#32 1#32 [] 0#32 []).status.busy = false ∧ (machine 1#32 1#32 [] 0#32 []).width = 1 ∧
      (machine 1#32 1#32 [] 0#32 []).height = 1 ∧ (machine 1#32 1#32 [] 0#32 []).msgLen = 0) ∧
    (v35.status.busy = false ∧ v35.msgLen.toNat + 4 ≤ 2 ^ 32 - 1 ∧
      v35.width.toNat * v35.height.toNat = v35.msgLen.toNat + 4) ∧
    after (·.status.phase) (exec .encode v35) = some .enc := by decide

/-- The last prefix index and the first message index. -/
theorem witness_StreamByteOfTotalThenMessage :
    (3#32 : Word).toNat < 4 ∧ 4 ≤ (4#32 : Word).toNat ∧ v30Step5.total.toNat = v30Step5.msgLen.toNat + 4 := by decide

/-- A prefix step and a message step. -/
theorem witness_EncodeProcessingStep :
    (Inv v30Step4 ∧ v30Step4.status.phase = .enc ∧ v30Step4.idx.toNat < v30Step4.total.toNat) ∧
    (Inv v30Step5 ∧ v30Step5.status.phase = .enc ∧ v30Step5.idx.toNat < v30Step5.total.toNat) :=
  ⟨⟨v30Step4_inv, by decide⟩, v30Step5_inv, by decide⟩

theorem witness_EncodeFinishStep : v30Step7.status.phase = .enc ∧ v30Step7.idx = v30Step7.total := by decide

/-- Five sequencer steps with a poll, an ignored write and a MSG read among them. -/
def encodeTurns : List Turn := [.seq, .host (.rd 1#4), .seq, .host (.wr 2#4 99#32), .seq, .seq, .host (.msgRd 0#32), .seq]

theorem encodeTurns_schedule : Schedule encodeTurn 5 encodeTurns := ⟨by decide, by decide, by decide⟩

/-- V37e (fails) and V35 (an exact fit), each with a turn left over. -/
theorem witness_EncodeWholeCommand :
    (Inv (withTurns (machine 3#32 1#32 [] 0#32 []) [.host (.wr 0#4 0x00000001#32), .seq]) ∧
      (machine 3#32 1#32 [] 0#32 []).status.busy = false ∧
      (3#32 : Word).toNat * (1#32 : Word).toNat < (0#32 : Word).toNat + 4) ∧
    (Inv (withTurns v35 (.host (.wr 0#4 0x00000001#32) :: (encodeTurns ++ [.host (.rd 5#4)]))) ∧ v35.status.busy = false ∧
      v35.msgLen.toNat + 4 ≤ 2 ^ 32 - 1 ∧ v35.msgLen.toNat + 4 ≤ v35.width.toNat * v35.height.toNat ∧
      Schedule encodeTurn (v35.msgLen.toNat + 4 + 1) encodeTurns) :=
  ⟨⟨⟨by decide, by decide, by unfold Status.Legal; decide, trivial, by decide⟩, by decide⟩,
    setAgenda_inv v35_inv _, by decide, by decide, by decide, encodeTurns_schedule⟩

/-- Both ends of the range of j. -/
theorem witness_EncodeProgress :
    Inv (withTurns v30 [.host (.wr 0#4 0x00000001#32)]) ∧ v30.status.busy = false ∧
    v30.msgLen.toNat + 4 ≤ 2 ^ 32 - 1 ∧ v30.msgLen.toNat + 4 ≤ v30.width.toNat * v30.height.toNat ∧
    0 ≤ v30.msgLen.toNat + 4 ∧ 6 ≤ v30.msgLen.toNat + 4 :=
  ⟨setAgenda_inv v30_inv _, by decide⟩

theorem witness_HideEndsWithDoneRead :
    Inv (withTurns v35 hide) ∧ (withTurns v35 hide).status.busy = false ∧ (withTurns v35 hide).agenda = hide ∧
    v35.msgLen.toNat + 4 ≤ 2 ^ 32 - 1 ∧ v35.msgLen.toNat + 4 ≤ v35.width.toNat * v35.height.toNat :=
  ⟨setAgenda_inv v35_inv _, by decide, rfl, by decide⟩

/-! ### Witnesses: DECODE -/

/-- V40b and V40d: three pixels and four. -/
theorem witness_DecodeStart :
    ((machine 3#32 1#32 [] 0#32 []).status.busy = false ∧ (3#32 : Word).toNat * (1#32 : Word).toNat < 4) ∧
    ((machine 4#32 1#32 [] 0#32 []).status.busy = false ∧ 4 ≤ (4#32 : Word).toNat * (1#32 : Word).toNat) := by decide

theorem witness_DecodeHeaderStep : Inv v31Header ∧ v31Header.status.phase = .decHdr ∧ v31Header.idx.toNat < 4 :=
  ⟨v31Header_inv, by decide⟩

/-- A claim equal to CAP and one above it (V39c, V39d). -/
theorem witness_DecodeHeaderFinishStep :
    (let s : State := { v39 0x000100#24 with total := 4#32, idx := 4#32, status := Status.running .decHdr }
     s.status.phase = .decHdr ∧ s.idx.toNat = 4 ∧ s.total.toNat ≤ s.width.toNat * s.height.toNat) ∧
    (let s : State := { v39 0x000101#24 with total := 5#32, idx := 4#32, status := Status.running .decHdr }
     s.status.phase = .decHdr ∧ s.idx.toNat = 4 ∧ s.width.toNat * s.height.toNat < s.total.toNat) := by decide

theorem witness_DecodeBodyStep :
    Inv v31Body ∧ v31Body.status.phase = .decBody ∧ v31Body.idx.toNat < v31Body.total.toNat :=
  ⟨v31Body_inv, by decide⟩

/-- TOTAL above 4 (V31), and below it (V39b). -/
theorem witness_DecodeBodyFinishStep :
    (v31BodyFinish.status.phase = .decBody ∧ v31BodyFinish.total.toNat ≤ v31BodyFinish.idx.toNat ∧
      4 ≤ v31BodyFinish.total.toNat) ∧
    (v39Finish.status.phase = .decBody ∧ v39Finish.total.toNat ≤ v39Finish.idx.toNat ∧ v39Finish.total.toNat < 4) := by
  decide

theorem witness_DecodeNeverWritesPix :
    (∃ t, exec .decode v31 = .next t) ∧ (v31Header.status.phase = .decHdr ∧ ∃ t, seqTurn v31Header = .next t) ∧
    (v31Body.status.phase = .decBody ∧ ∃ t, seqTurn v31Body = .next t) :=
  ⟨next_of (by decide), ⟨by decide, next_of (by decide)⟩, by decide, next_of (by decide)⟩

/-- V39d's five sequencer steps, with a poll and a read of the last pixel among them. -/
def rejectTurns : List Turn := [.seq, .host (.rd 1#4), .seq, .seq, .host (.pixRd 1#32 1#32), .seq, .seq]

/-- V31's eight, with an ignored write and a read of the last pixel among them. -/
def revealTurns : List Turn :=
  [.seq, .seq, .seq, .host (.wr 0#4 3#32), .seq, .seq, .host (.pixRd 2#32 2#32), .seq, .seq, .seq]

/-- V40b, V39d and V31: the three ways DECODE ends. -/
theorem witness_DecodeWholeCommand :
    (Inv (withTurns (machine 3#32 1#32 [] 0#32 []) [.host (.wr 0#4 0x00000002#32)]) ∧
      (machine 3#32 1#32 [] 0#32 []).status.busy = false ∧ (3#32 : Word).toNat * (1#32 : Word).toNat < 4) ∧
    (Inv (withTurns (v39 0x000101#24) (.host (.wr 0#4 0x00000002#32) :: (rejectTurns ++ []))) ∧
      (v39 0x000101#24).status.busy = false ∧
      4 ≤ (v39 0x000101#24).width.toNat * (v39 0x000101#24).height.toNat ∧
      (v39 0x000101#24).width.toNat * (v39 0x000101#24).height.toNat < claimedLength (v39 0x000101#24) ∧
      Schedule (decodeTurn (v39 0x000101#24)) (4 + 1) rejectTurns) ∧
    (Inv (withTurns v31 (.host (.wr 0#4 0x00000002#32) :: (revealTurns ++ []))) ∧ v31.status.busy = false ∧
      4 ≤ v31.width.toNat * v31.height.toNat ∧ claimedLength v31 ≤ v31.width.toNat * v31.height.toNat ∧
      Schedule (decodeTurn v31) (4 + 1 + (claimedLength v31 - 4) + 1) revealTurns) :=
  ⟨⟨⟨by decide, by decide, by unfold Status.Legal; decide, trivial, by decide⟩, by decide⟩,
    ⟨setAgenda_inv v39_inv _, by decide, by decide, by decide, by decide, by decide, by decide⟩,
    setAgenda_inv v31_inv _, by decide, by decide, by decide, by decide, by decide, by decide⟩

/-- V35 before ENCODE, as a program of its own. -/
def hideV35 : State := withTurns v35 (.host (.wr 0#4 0x00000001#32) :: (encodeTurns ++ []))

/-- A second machine: the grid that V35 ends with, other contents of MSG and MSG_LEN, and DECODE with six sequencer steps. -/
def revealV35 : State :=
  withTurns (machine 2#32 2#32 [0x101010#24, 0x202020#24, 0x303030#24, 0x404144#24] 9#32 [(0, 0xEE#8)])
    (.host (.wr 0#4 0x00000002#32) :: (List.replicate 6 .seq ++ []))

theorem witness_DecodeRecoversTheMessage :
    Inv hideV35 ∧ hideV35.status.busy = false ∧ hideV35.msgLen.toNat + 4 ≤ 2 ^ 32 - 1 ∧
    hideV35.msgLen.toNat + 4 ≤ hideV35.width.toNat * hideV35.height.toNat ∧
    Schedule encodeTurn (hideV35.msgLen.toNat + 4 + 1) encodeTurns ∧
    ∃ t, steps (1 + encodeTurns.length) hideV35 = .next t ∧ Inv revealV35 ∧ revealV35.status.busy = false ∧
      revealV35.width = hideV35.width ∧ revealV35.height = hideV35.height ∧
      (∀ x y, inGrid revealV35 x y = true → pixelAt revealV35 x y = pixelAt t x y) ∧
      Schedule (decodeTurn revealV35) (4 + 1 + hideV35.msgLen.toNat + 1) (List.replicate 6 .seq) := by
  refine ⟨setAgenda_inv v35_inv _, by decide, by decide, by decide, encodeTurns_schedule, ?_⟩
  have h : after (·.pix) (steps (1 + encodeTurns.length) hideV35) = some revealV35.pix := by decide
  obtain ⟨t, ht⟩ := next_of (r := steps (1 + encodeTurns.length) hideV35) (by decide)
  rw [ht] at h
  have hp : t.pix = revealV35.pix := by simpa [after, nextOf] using h
  refine ⟨t, ht, ⟨by decide, by decide, by unfold Status.Legal; decide, trivial, by decide⟩, by decide, rfl, rfl, ?_,
    by decide, by decide, by decide⟩
  intro x y _
  simp [pixelAt, hp]

end Sys2Proof.Tests
end

section
/-! The invariant `Inv` is kept by every step of either agent, and STATUS as the register port shows it
(10_state.md R36, R40). -/

namespace Sys2Proof.Machine

/-! ### STATUS and its word -/

/-- The legal values of STATUS are the three that rules write: after reset, at the end of a command, while one runs. -/
theorem Status.Legal.cases {t : Status} (h : t.Legal) :
    t = Status.cleared ∨ (∃ e, t = Status.ended e) ∨ ∃ p, p ≠ .idle ∧ t = Status.running p := by
  obtain ⟨p, d, e⟩ := t
  obtain ⟨hbusy, herr⟩ := h
  by_cases hp : p = .idle
  · subst hp
    cases d with
    | true => exact .inr (.inl ⟨e, rfl⟩)
    | false =>
      obtain rfl : e = .none := by_contra fun hne => absurd (herr hne).1 Bool.false_ne_true
      exact .inl rfl
  · obtain ⟨rfl, rfl⟩ : d = false ∧ e = .none := hbusy ((busy_eq_true_iff _).2 hp)
    exact .inr (.inr ⟨p, hp, rfl⟩)

theorem Phase.code_eq_zero_iff (p : Phase) : p.code = 0#2 ↔ p = .idle := by cases p <;> decide

theorem ErrCode.code_eq_zero_iff (e : ErrCode) : e.code = 0#4 ↔ e = .none := by cases e <;> decide

theorem ErrCode.code_le_three (e : ErrCode) : e.code.toNat ≤ 3 := by cases e <;> decide

/-! The fields of the STATUS word, where 10_state.md R23 lays them out. -/

theorem Status.word_busy (t : Status) : t.word.getLsbD 0 = t.busy := by
  rw [Status.word, BitVec.getLsbD_append, if_pos Nat.one_pos]
  exact BitVec.getLsbD_ofBool _ 0

theorem Status.word_done (t : Status) : t.word.getLsbD 1 = t.done := by
  rw [Status.word, BitVec.getLsbD_append, if_neg (lt_irrefl 1), BitVec.getLsbD_append, if_pos Nat.one_pos]
  exact BitVec.getLsbD_ofBool _ 0

theorem Status.word_phase (t : Status) : t.word.extractLsb' 2 2 = t.phase.code := by
  rw [Status.word, BitVec.extractLsb'_append_eq_of_le (by decide), BitVec.extractLsb'_append_eq_of_le (by decide)]
  exact BitVec.extractLsb'_append_eq_right

theorem Status.word_err (t : Status) : t.word.extractLsb' 4 4 = t.err.code := by
  rw [Status.word, BitVec.extractLsb'_append_eq_of_le (by decide), BitVec.extractLsb'_append_eq_of_le (by decide),
    BitVec.extractLsb'_append_eq_of_le (by decide)]
  exact BitVec.extractLsb'_append_eq_right

theorem Status.word_high (t : Status) : t.word.extractLsb' 8 24 = 0#24 := by
  rw [Status.word, BitVec.extractLsb'_append_eq_of_le (by decide), BitVec.extractLsb'_append_eq_of_le (by decide),
    BitVec.extractLsb'_append_eq_of_le (by decide), BitVec.extractLsb'_append_eq_of_le (by decide)]
  exact BitVec.extractLsb'_eq_self

/-- A legal STATUS shows one of eight words (R36). -/
theorem Status.Legal.word_mem {t : Status} (h : t.Legal) :
    t.word ∈ [0x00#32, 0x02#32, 0x12#32, 0x22#32, 0x32#32, 0x05#32, 0x09#32, 0x0D#32] := by
  rcases h.cases with rfl | ⟨e, rfl⟩ | ⟨p, hp, rfl⟩
  · decide
  · cases e <;> decide
  · cases p with
    | idle => exact absurd rfl hp
    | enc | decHdr | decBody => decide

theorem regRead_status (s : State) : regRead 1#4 s = s.status.word := rfl

/-- Settles O10: each field of the STATUS word is a field of a legal STATUS. -/
theorem statusShowsOnlyEightValues : Obligations.StatusShowsOnlyEightValues := by
  unfold Obligations.StatusShowsOnlyEightValues
  intro s hs
  obtain ⟨hbusy, herr⟩ := hs.status
  rw [regRead_status, Status.word_busy, Status.word_done, Status.word_phase, Status.word_err, Status.word_high, Ne, Ne,
    Phase.code_eq_zero_iff, ErrCode.code_eq_zero_iff]
  exact ⟨busy_eq_true_iff _, hbusy, herr, ErrCode.code_le_three _, rfl, hs.status.word_mem⟩

/-! ### The invariant, phase by phase -/

theorem phaseInv_of_idle {s : State} (h : s.status.phase = .idle) : PhaseInv s := by simp [PhaseInv, h]

theorem phaseInv_enc_iff {s : State} (h : s.status.phase = .enc) :
    PhaseInv s ↔ s.total.toNat = s.msgLen.toNat + 4 ∧ s.total.toNat ≤ cap s ∧ s.idx.toNat ≤ s.total.toNat := by
  simp [PhaseInv, h]

theorem phaseInv_decHdr_iff {s : State} (h : s.status.phase = .decHdr) :
    PhaseInv s ↔ 4 ≤ cap s ∧ s.idx.toNat ≤ 4 ∧ s.total.toNat < 256 ^ s.idx.toNat := by
  simp [PhaseInv, h]

theorem phaseInv_decBody_iff {s : State} (h : s.status.phase = .decBody) :
    PhaseInv s ↔
      4 ≤ cap s ∧ s.total.toNat ≤ cap s ∧ 4 ≤ s.idx.toNat ∧ s.idx.toNat ≤ max s.total.toNat 4 := by
  simp [PhaseInv, h]

theorem cleared_legal : Status.cleared.Legal := by simp [Status.Legal, Status.cleared, Status.busy]

/-- Settles O8: the memories are empty, STATUS is cleared and the phase is IDLE. -/
theorem resetMeetsTheInvariant : Obligations.ResetMeetsTheInvariant :=
  ⟨Memory.wf_nil _, Memory.wf_nil _, cleared_legal, phaseInv_of_idle rfl, by decide⟩

/-- Settles O6: every field is written out in `State.reset`, and an idle sequencer changes nothing. -/
theorem resetRegisters : Obligations.ResetRegisters :=
  ⟨rfl, rfl, rfl, rfl, rfl, rfl, rfl, rfl, rfl, rfl, by rw [regRead_status]; decide, seqTurn_idle rfl⟩

/-! ### The operations keep the invariant -/

/-- Error entry and the end of a command (`fail` and `finish`) keep the invariant in every phase. -/
theorem ended_inv {s : State} (h : Inv s) (e : ErrCode) : Inv (setStatus (Status.ended e) s) :=
  ⟨h.pix, h.msg, ended_legal e, phaseInv_of_idle rfl, h.res⟩

theorem finish_inv {s : State} (h : Inv s) : Inv (finish s) := ended_inv h .none

theorem fail_inv {s : State} (h : Inv s) (e : ErrCode) : Inv (fail e s) := ended_inv h e

theorem setPos_inv {s : State} (h : Inv s) (x y : Word) : Inv (setPos x y s) :=
  ⟨h.pix, h.msg, h.status, h.phase, h.res⟩

/-- A result of at most 24 bits keeps RES[31:24] at 0 (10_state.md R31). -/
theorem setRes_zext32_inv {s : State} (h : Inv s) {n : Nat} (hn : n ≤ 24) (v : BitVec n) :
    Inv (setRes (zext32 v) s) := by
  refine ⟨h.pix, h.msg, h.status, h.phase, ?_⟩
  calc (zext32 v).toNat = v.toNat := BitVec.toNat_setWidth_of_le (by omega)
    _ < 2 ^ n := v.isLt
    _ ≤ 2 ^ 24 := Nat.pow_le_pow_right (by decide) hn

theorem resetEvent_inv {s : State} (h : Inv s) : Inv (resetEvent s) :=
  ⟨h.pix, h.msg, cleared_legal, phaseInv_of_idle rfl, by simp [resetEvent, State.reset]⟩

/-- The registers the host may write while idle are bound by nothing (10_state.md R24 to R30). -/
theorem hostRegisters_inv {s : State} (h : Inv s) (hi : s.status.phase = .idle) (w ht l a b : Word) :
    Inv { s with width := w, height := ht, msgLen := l, opa := a, opb := b } :=
  ⟨h.pix, h.msg, h.status, phaseInv_of_idle hi, h.res⟩

theorem setMsgLen_inv {s : State} (h : Inv s) (hi : s.status.phase = .idle) (v : Word) : Inv (setMsgLen v s) :=
  hostRegisters_inv h hi s.width s.height v s.opa s.opb

theorem storePixel_inv {s : State} (h : Inv s) (x y : Word) (v : Pixel) : Inv (storePixel s x y v) :=
  ⟨storePixel_wf h.pix x y v, h.msg, h.status, h.phase, h.res⟩

theorem msgWrite_inv {s : State} (h : Inv s) (a : Word) (v : Byte) : Inv (msgWrite s a v) :=
  ⟨h.pix, msgWrite_wf h.msg a v, h.status, h.phase, h.res⟩

theorem recordBus_inv {s : State} (h : Inv s) (as : List Access) : Inv (recordBus as s) :=
  ⟨h.pix, h.msg, h.status, h.phase, h.res⟩

theorem setIdx_inv {s : State} (h : Inv s) {v : Word} (hp : PhaseInv (setIdx v s)) : Inv (setIdx v s) :=
  ⟨h.pix, h.msg, h.status, hp, h.res⟩

/-- TOTAL and IDX change together: between the two, TOTAL may exceed the header phase's bound. -/
theorem setTotal_setIdx_inv {s : State} (h : Inv s) {t v : Word} (hp : PhaseInv (setIdx v (setTotal t s))) :
    Inv (setIdx v (setTotal t s)) :=
  ⟨h.pix, h.msg, h.status, hp, h.res⟩

theorem running_inv {s : State} (h : Inv s) {p : Phase} (hp : PhaseInv (setStatus (Status.running p) s)) :
    Inv (setStatus (Status.running p) s) :=
  ⟨h.pix, h.msg, running_legal p, hp, h.res⟩

theorem start_inv {s : State} (h : Inv s) {p : Phase} {t : Word} (hp : PhaseInv (start p t s)) : Inv (start p t s) :=
  ⟨h.pix, h.msg, running_legal p, hp, h.res⟩

/-! ### Each kind of step keeps the invariant -/

/-- The busy gate keeps what its idle branch keeps. -/
theorem whenIdle_inv {s t : State} {k : State → Answer} (h : Inv s)
    (hk : s.status.phase = .idle → k s = .next t → Inv t) (ht : whenIdle s k = .next t) : Inv t := by
  rcases whenIdle_next ht with ⟨-, rfl⟩ | ⟨hb, ht⟩
  · exact h
  · exact hk ((busy_eq_false_iff _).1 hb) ht

theorem total33_toNat {s : State} (h : s.msgLen.toNat + 4 ≤ 2 ^ 32 - 1) :
    (BitVec.ofNat 32 (total33 s)).toNat = s.msgLen.toNat + 4 := by
  rw [BitVec.toNat_ofNat]
  exact Nat.mod_eq_of_lt (show s.msgLen.toNat + 4 < 2 ^ 32 by omega)

/-- ENCODE's passed start check opens its phase within bounds (42_encoder.md R151). -/
theorem start_enc_inv {s : State} (h : Inv s) (hc : (tooLong s || tooBig s) = false) :
    Inv (start .enc (BitVec.ofNat 32 (total33 s)) s) := by
  obtain ⟨hlen, hcap⟩ := (capacity_fits_iff s).1 hc
  refine start_inv h ((phaseInv_enc_iff rfl).2 ?_)
  simp only [start_eq, setStatus_total, setIdx_total, setTotal_total, total33_toNat hlen]
  exact ⟨rfl, hcap, Nat.zero_le _⟩

/-- DECODE's passed start check opens its header phase within bounds (43_decoder.md R171). -/
theorem start_decHdr_inv {s : State} (h : Inv s) (hc : 4 ≤ cap s) : Inv (start .decHdr 0#32 s) :=
  start_inv h ((phaseInv_decHdr_iff rfl).2 ⟨hc, Nat.zero_le _, Nat.one_pos⟩)

theorem exec_inv {i : Instr} {s t : State} (h : Inv s) (ht : exec i s = .next t) : Inv t := by
  rcases exec_cases ht with ⟨-, rfl⟩ | ⟨-, ⟨-, rfl⟩ | ⟨-, -, rfl⟩ | ⟨-, hc, rfl⟩ | ⟨-, -, rfl⟩ | ⟨-, hc, rfl⟩ |
    ⟨-, rfl⟩ | ⟨-, rfl⟩ | ⟨-, rfl⟩ | ⟨-, rfl⟩ | ⟨-, -, rfl⟩ | ⟨-, -, rfl⟩⟩
  · exact h
  · exact finish_inv h
  · exact fail_inv h _
  · exact start_enc_inv h hc
  · exact fail_inv h _
  · exact start_decHdr_inv h hc
  · exact finish_inv (setRes_zext32_inv h (by decide) _)
  · exact finish_inv (setRes_zext32_inv h (by decide) _)
  · exact finish_inv (setRes_zext32_inv h (by decide) _)
  · exact finish_inv (setRes_zext32_inv h (by decide) _)
  · exact fail_inv h _
  · exact finish_inv (setPos_inv h _ _)

/-- A CMD write keeps the invariant, its word a command or not (44_system.md R193, R194). -/
theorem dispatch_inv {w : Word} {s t : State} (h : Inv s) (ht : dispatch w s = .next t) : Inv t := by
  unfold dispatch at ht
  split at ht
  · exact exec_inv h ht
  · refine whenIdle_inv h (fun _ hk => ?_) ht
    cases hk
    exact fail_inv h _

/-- A register write keeps the invariant: while idle it stores in a register that the invariant leaves free (R191). -/
theorem regWrite_inv {n : RegNum} {v : Word} {s t : State} (h : Inv s) (ht : regWrite n v s = .next t) : Inv t := by
  have hreg (w x l a b : Word) (ht : whenIdle s (fun s =>
      .next { s with width := w, height := x, msgLen := l, opa := a, opb := b }) = .next t) : Inv t := by
    refine whenIdle_inv h (fun hi hk => ?_) ht
    cases hk
    exact hostRegisters_inv h hi w x l a b
  unfold regWrite at ht
  split at ht
  · exact dispatch_inv h ht
  · exact hreg v s.height s.msgLen s.opa s.opb ht
  · exact hreg s.width v s.msgLen s.opa s.opb ht
  · exact hreg s.width s.height v s.opa s.opb ht
  · exact hreg s.width s.height s.msgLen v s.opb ht
  · exact hreg s.width s.height s.msgLen s.opa v ht
  · cases ht; exact h

/-! What each host access to a memory does if it answers a next state (20_memory.md R84). -/

theorem hostPixRead_next {x y : Word} {s t : State} (h : hostPixRead x y s = .next t) :
    t = recordSeen (.pix x y (pixelAt s x y)) s := by
  unfold hostPixRead at h
  split at h
  · cases h
  all_goals
    cases hg : inGrid s x y with
    | true => rw [pixRead_of_inGrid hg] at h; cases h; rfl
    | false => rw [pixRead_outside hg] at h; cases h

theorem hostPixWrite_next {x y : Word} {v : Pixel} {s t : State} (h : hostPixWrite x y v s = .next t) :
    t = storePixel s x y v := by
  unfold hostPixWrite at h
  split at h <;> cases h
  rfl

theorem hostMsgRead_next {a : Word} {s t : State} (h : hostMsgRead a s = .next t) :
    t = recordSeen (.msg a (msgRead s a)) s := by
  unfold hostMsgRead at h
  split at h <;> cases h <;> rfl

theorem hostMsgWrite_next {a : Word} {v : Byte} {s t : State} (h : hostMsgWrite a v s = .next t) :
    t = msgWrite s a v := by
  unfold hostMsgWrite at h
  split at h <;> cases h
  rfl

/-- A host step keeps the invariant, whatever the host's duties. -/
theorem hostStep_inv {op : HostOp} {s t : State} (h : Inv s) (ht : hostStep op s = .next t) : Inv t := by
  cases op with
  | rd n => cases ht; exact recordSeen_inv h _
  | wr n v => exact regWrite_inv h ht
  | pixRd x y => rw [hostPixRead_next ht]; exact recordSeen_inv h _
  | pixWr x y v => rw [hostPixWrite_next ht]; exact storePixel_inv h x y v
  | msgRd a => rw [hostMsgRead_next ht]; exact recordSeen_inv h _
  | msgWr a v => rw [hostMsgWrite_next ht]; exact msgWrite_inv h a v
  | reset => cases ht; exact resetEvent_inv h

theorem waitPoll_inv {s t : State} (h : Inv s) (ht : waitPoll s = .next t) : Inv t := by
  unfold waitPoll at ht
  split at ht <;> cases ht
  · exact setAgenda_inv (recordSeen_inv h _) _
  · exact recordSeen_inv h _

/-! ### The sequencer keeps the invariant -/

/-- ENCODE's processing step (42_encoder.md R152): IDX stays at most TOTAL. -/
theorem encProcessed_inv {s : State} (h : Inv s) (hp : s.status.phase = .enc) (hi : s.idx.toNat < s.total.toNat) :
    Inv (encProcessed s) := by
  obtain ⟨htotal, hcap, -⟩ := (phaseInv_enc_iff hp).1 h.phase
  refine recordBus_inv (setIdx_inv (storePixel_inv h _ _ _) ?_) _
  refine (phaseInv_enc_iff (by exact hp)).2 ⟨htotal, hcap, ?_⟩
  rw [setIdx_idx, succ_toNat hi s.total.isLt]
  exact hi

/-- One more length byte appends eight bits to TOTAL (43_decoder.md R172). -/
theorem shiftIn_toNat {t : Word} (h : t.toNat < 2 ^ 24) (e : Byte) : (shiftIn t e).toNat = t.toNat * 256 + e.toNat := by
  have hlow : e.toNat < 2 ^ 8 := e.isLt
  have hfits : t.toNat <<< 8 < 2 ^ 32 := by
    rw [Nat.shiftLeft_eq]
    omega
  rw [shiftIn, BitVec.toNat_or, BitVec.toNat_shiftLeft, Nat.mod_eq_of_lt hfits,
    BitVec.toNat_setWidth_of_le (by decide), ← Nat.shiftLeft_add_eq_or_of_lt hlow, Nat.shiftLeft_eq]

/-- DECODE's header step (R172): after `i` length bytes TOTAL is below `256 ^ i`. -/
theorem decHeadered_inv {s : State} (h : Inv s) (hp : s.status.phase = .decHdr) (hi : s.idx.toNat < 4) :
    Inv (decHeadered s) := by
  obtain ⟨hcap, -, htotal⟩ := (phaseInv_decHdr_iff hp).1 h.phase
  have hsmall : s.total.toNat < 2 ^ 24 :=
    htotal.trans_le (Nat.pow_le_pow_right (j := 3) (by decide) (by omega))
  refine recordBus_inv (setTotal_setIdx_inv h ?_) _
  refine (phaseInv_decHdr_iff (by exact hp)).2 ⟨hcap, ?_, ?_⟩
  · rw [setIdx_idx, succ_toNat hi (by decide)]
    exact hi
  · rw [setIdx_idx, succ_toNat hi (by decide), setIdx_total, setTotal_total, shiftIn_toNat hsmall, Nat.pow_succ]
    have := (extract (pixelAt s (coord s.idx s.width).1 (coord s.idx s.width).2)).isLt
    omega

/-- DECODE's header-finish step (R173): the capacity check is the body's bound on TOTAL. -/
theorem running_decBody_inv {s : State} (h : Inv s) (hp : s.status.phase = .decHdr) (hi : s.idx.toNat = 4)
    (hc : s.total.toNat ≤ cap s) : Inv (setStatus (Status.running .decBody) s) := by
  obtain ⟨hcap, -, -⟩ := (phaseInv_decHdr_iff hp).1 h.phase
  exact running_inv h ((phaseInv_decBody_iff rfl).2 ⟨hcap, hc, hi.ge, hi.le.trans (Nat.le_max_right _ _)⟩)

/-- DECODE's body step (R174): IDX stays at most TOTAL. -/
theorem decBodied_inv {s : State} (h : Inv s) (hp : s.status.phase = .decBody) (hi : s.idx.toNat < s.total.toNat) :
    Inv (decBodied s) := by
  obtain ⟨hcap, htotal, hlow, -⟩ := (phaseInv_decBody_iff hp).1 h.phase
  refine recordBus_inv (setIdx_inv (msgWrite_inv h _ _) ?_) _
  refine (phaseInv_decBody_iff (by exact hp)).2 ⟨hcap, htotal, ?_, ?_⟩
  · rw [setIdx_idx, succ_toNat hi s.total.isLt]
    omega
  · rw [setIdx_idx, succ_toNat hi s.total.isLt]
    exact le_max_of_le_left hi

theorem seqTurn_inv {s t : State} (h : Inv s) (ht : seqTurn s = .next t) : Inv t := by
  rcases seqTurn_cases ht with ⟨-, rfl⟩ | ⟨hp, hi, rfl⟩ | ⟨-, -, rfl⟩ | ⟨hp, hi, rfl⟩ | ⟨-, -, -, rfl⟩ |
    ⟨hp, hi, hc, rfl⟩ | ⟨hp, hi, -, rfl⟩ | ⟨-, -, rfl⟩
  · exact h
  · exact encProcessed_inv h hp hi
  · exact finish_inv h
  · exact decHeadered_inv h hp hi
  · exact fail_inv h _
  · exact running_decBody_inv h hp hi hc
  · exact decBodied_inv h hp hi
  · exact setMsgLen_inv (finish_inv h) rfl _

/-! ### The step -/

theorem runTurn_inv {u : Turn} {s t : State} (h : Inv s) (ht : runTurn u s = .next t) : Inv t := by
  cases u with
  | host op => exact hostStep_inv h ht
  | seq => exact seqTurn_inv h ht
  | wait => exact waitPoll_inv h ht

/-- Settles O9, by the agent that steps: the sequencer's enabled step, or the agenda's turn. -/
theorem everyStepKeepsTheInvariant : Obligations.EveryStepKeepsTheInvariant := by
  intro s t h ht
  rcases step_cases ht with ⟨-, ht⟩ | ⟨u, rest, -, ht⟩
  · exact seqTurn_inv h ht
  · exact runTurn_inv (setAgenda_inv h rest) ht

end Sys2Proof.Machine
end

section
/-! Memory (20_memory.md R62, R81 to R84): one element after a write, and what each host access answers in each phase. -/

namespace Sys2Proof.Machine

/-! ### One element after a write -/

theorem pixelAt_storePixel_same {s : State} (h : Inv s) (x y : Word) (v : Pixel) :
    pixelAt (storePixel s x y v) x y = v := by
  rw [pixelAt_storePixel h.pix.1, if_pos ⟨rfl, rfl⟩]

theorem pixelAt_storePixel_other {s : State} (h : Inv s) {x y x' y' : Word} (hne : (x', y') ≠ (x, y)) (v : Pixel) :
    pixelAt (storePixel s x y v) x' y' = pixelAt s x' y' := by
  rw [pixelAt_storePixel h.pix.1, if_neg (by simpa using hne)]

theorem msgRead_msgWrite_same {s : State} (h : Inv s) (a : Word) (v : Byte) : msgRead (msgWrite s a v) a = v := by
  rw [msgRead_msgWrite h.msg.1, if_pos rfl]

theorem msgRead_msgWrite_other {s : State} (h : Inv s) {a b : Word} (hne : b ≠ a) (v : Byte) :
    msgRead (msgWrite s a v) b = msgRead s b := by
  rw [msgRead_msgWrite h.msg.1, if_neg hne]

/-- Settles O26: PixWrite stores in the grid, and a store shows at its own coordinates only. -/
theorem pixelWriteReadsBack : Obligations.PixelWriteReadsBack := by
  intro s x y v h hg
  have hread : pixRead (storePixel s x y v) x y = .ok v := by
    rw [pixRead_of_inGrid (by simpa using hg), pixelAt_storePixel_same h]
  exact ⟨storePixel s x y v, pixWrite_of_inGrid hg v, hread, fun _ _ hne => pixelAt_storePixel_other h hne v, rfl⟩

/-- Settles O27: a write to MSG is a point update. -/
theorem messageWriteReadsBack : Obligations.MessageWriteReadsBack := fun _ a v h =>
  ⟨msgRead_msgWrite_same h a v, fun _ hne => msgRead_msgWrite_other h hne v, rfl⟩

/-- Settles O28, by the grid check. -/
theorem outsideTheGridIsAFault : Obligations.OutsideTheGridIsAFault := by
  intro s x y v
  rw [← inGrid_iff, Bool.not_eq_true]
  exact ⟨pixRead_of_inGrid, fun hout => ⟨pixRead_outside hout, pixWrite_outside hout v⟩⟩

/-! ### What each host access answers, phase by phase -/

theorem hostPixRead_inGrid {s : State} {x y : Word} (hp : s.status.phase ≠ .enc) (hg : inGrid s x y = true) :
    hostPixRead x y s = .next (recordSeen (.pix x y (pixelAt s x y)) s) := by
  unfold hostPixRead
  split
  · contradiction
  all_goals rw [pixRead_of_inGrid hg]

theorem hostPixRead_enc {s : State} (hp : s.status.phase = .enc) (x y : Word) :
    hostPixRead x y s = .refused .pixAccessDuringEncode := by
  simp only [hostPixRead, hp]

theorem hostPixWrite_idle {s : State} (hp : s.status.phase = .idle) (x y : Word) (v : Pixel) :
    hostPixWrite x y v s = .next (storePixel s x y v) := by
  simp only [hostPixWrite, hp]

theorem hostPixWrite_enc {s : State} (hp : s.status.phase = .enc) (x y : Word) (v : Pixel) :
    hostPixWrite x y v s = .refused .pixAccessDuringEncode := by
  simp only [hostPixWrite, hp]

theorem hostPixWrite_decode {s : State} (hp : s.status.phase = .decHdr ∨ s.status.phase = .decBody) (x y : Word)
    (v : Pixel) : hostPixWrite x y v s = .refused .pixWriteDuringDecode := by
  rcases hp with hp | hp <;> simp only [hostPixWrite, hp]

theorem hostMsgRead_idle_or_enc {s : State} (hp : s.status.phase = .idle ∨ s.status.phase = .enc) (a : Word) :
    hostMsgRead a s = .next (recordSeen (.msg a (msgRead s a)) s) := by
  rcases hp with hp | hp <;> simp only [hostMsgRead, hp]

theorem hostMsgRead_decode {s : State} (hp : s.status.phase = .decHdr ∨ s.status.phase = .decBody) (a : Word) :
    hostMsgRead a s = .refused .msgAccessDuringDecode := by
  rcases hp with hp | hp <;> simp only [hostMsgRead, hp]

theorem hostMsgWrite_idle {s : State} (hp : s.status.phase = .idle) (a : Word) (v : Byte) :
    hostMsgWrite a v s = .next (msgWrite s a v) := by
  simp only [hostMsgWrite, hp]

theorem hostMsgWrite_enc {s : State} (hp : s.status.phase = .enc) (a : Word) (v : Byte) :
    hostMsgWrite a v s = .refused .msgWriteDuringEncode := by
  simp only [hostMsgWrite, hp]

theorem hostMsgWrite_decode {s : State} (hp : s.status.phase = .decHdr ∨ s.status.phase = .decBody) (a : Word)
    (v : Byte) : hostMsgWrite a v s = .refused .msgAccessDuringDecode := by
  rcases hp with hp | hp <;> simp only [hostMsgWrite, hp]

/-- Settles O29: all four accesses complete while idle, and the writes are point updates. -/
theorem hostAccessWhileIdle : Obligations.HostAccessWhileIdle := by
  intro s hb
  have hp : s.status.phase = .idle := (busy_eq_false_iff _).1 hb
  refine ⟨fun x y hg => hostPixRead_inGrid (by simp [hp]) hg, fun a => hostMsgRead_idle_or_enc (.inl hp) a,
    fun x y v => ⟨storePixel s x y v, hostPixWrite_idle hp x y v, rfl, fun h => ?_⟩,
    fun a v => ⟨msgWrite s a v, hostMsgWrite_idle hp a v, rfl, fun h => ?_⟩⟩
  · exact ⟨pixelAt_storePixel_same h x y v, fun _ _ hne => pixelAt_storePixel_other h hne v⟩
  · exact ⟨msgRead_msgWrite_same h a v, fun _ hne => msgRead_msgWrite_other h hne v⟩

/-- Settles O30: ENCODE leaves the host the MSG read, DECODE the PIX read. -/
theorem hostAccessWhileBusy : Obligations.HostAccessWhileBusy := by
  intro s x y a p b
  refine ⟨fun henc => ?_, fun hdec => ?_⟩
  · exact ⟨hostPixRead_enc henc x y, hostPixWrite_enc henc x y p, hostMsgWrite_enc henc a b,
      hostMsgRead_idle_or_enc (.inr henc) a⟩
  · have hnot : s.status.phase ≠ .enc := by rcases hdec with hp | hp <;> simp [hp]
    exact ⟨hostMsgRead_decode hdec a, hostMsgWrite_decode hdec a b, hostPixWrite_decode hdec x y p,
      hostPixRead_inGrid hnot⟩

end Sys2Proof.Machine
end

section
/-! Command words (30_encoding.md R90 to R93): a word is its two fields, and decoding inverts encoding. -/

namespace Sys2Proof

/-! ### The fields of a word -/

theorem toNat_eq_fields (w : Word) : w.toNat = (zeroField w).toNat * 16 + (opcodeField w).toNat := by
  rw [zeroField, opcodeField, BitVec.extractLsb'_toNat, BitVec.extractLsb'_toNat, Nat.shiftRight_eq_div_pow]
  have := w.isLt
  omega

theorem toNat_eq_opcodeField {w : Word} (h : zeroField w = 0#28) : w.toNat = (opcodeField w).toNat := by
  simpa [h] using toNat_eq_fields w

theorem zeroField_ne_zero {w : Word} (h : 16 ≤ w.toNat) : zeroField w ≠ 0#28 := fun hz => by
  have hop := (opcodeField w).isLt
  rw [← toNat_eq_opcodeField hz] at hop
  omega

/-! ### What the decoder answers -/

/-- Every command keeps the statement of Laws/PerInstr.lean. -/
theorem roundTrip : ∀ i : Instr, Laws.RoundTrip.Statement i
  | .nop => Laws.RoundTrip.nop
  | .encode => Laws.RoundTrip.encode
  | .decode => Laws.RoundTrip.decode
  | .pack => Laws.RoundTrip.pack
  | .unpack => Laws.RoundTrip.unpack
  | .embed => Laws.RoundTrip.embed
  | .extract => Laws.RoundTrip.extract
  | .coord => Laws.RoundTrip.coord

theorem decode_encode (i : Instr) : decode (encode i) = .ok i :=
  have ⟨_, h, _⟩ := roundTrip i
  h

theorem decode_of_zeroField_ne {w : Word} (h : zeroField w ≠ 0#28) : decode w = .error .zeroFieldSet := if_neg h

/-- A word is a command exactly if ZERO is 0 and its OPCODE is one of the map (R91). -/
theorem decode_eq_ok_iff_fields {w : Word} {i : Instr} :
    decode w = .ok i ↔ zeroField w = 0#28 ∧ opcodeInstr (opcodeField w) = some i := by
  unfold decode
  split
  · next hz => cases opcodeInstr (opcodeField w) <;> simp [hz]
  · next hz => simp [hz]

/-- No two opcodes are one command (R92). -/
theorem opcodeInstr_inj : ∀ {a b : BitVec 4}, (opcodeInstr a).isSome → opcodeInstr a = opcodeInstr b → a = b := by
  decide

theorem exists_opcodeInstr_iff (op : BitVec 4) :
    (∃ i, opcodeInstr op = some i) ↔ op.toNat ∈ [0x0, 0x1, 0x2, 0x4, 0x5, 0x6, 0x7, 0x8] := by
  rw [← Option.isSome_iff_exists]
  revert op
  decide

/-- A command has exactly one word (R92). -/
theorem decode_eq_ok_iff {w : Word} {i : Instr} : decode w = .ok i ↔ w = encode i := by
  refine ⟨fun h => ?_, fun h => h ▸ decode_encode i⟩
  obtain ⟨hz, hop⟩ := decode_eq_ok_iff_fields.1 h
  obtain ⟨hz', hop'⟩ := decode_eq_ok_iff_fields.1 (decode_encode i)
  have hsame : opcodeField w = opcodeField (encode i) := opcodeInstr_inj (by simp [hop]) (hop.trans hop'.symm)
  apply BitVec.eq_of_toNat_eq
  rw [toNat_eq_opcodeField hz, toNat_eq_opcodeField hz', hsame]

theorem encode_inj {i j : Instr} (h : encode i = encode j) : i = j := by
  have hj : decode (encode i) = .ok j := decode_eq_ok_iff.2 h
  rw [decode_encode] at hj
  exact Except.ok.inj hj

/-- Settles O2: the fields of a word fix it, and no two opcodes are one command. -/
theorem decodeEncodeAgree : Obligations.DecodeEncodeAgree :=
  ⟨fun _ _ => decode_eq_ok_iff, fun _ _ => encode_inj, fun _ h => ⟨_, decode_of_zeroField_ne (zeroField_ne_zero h)⟩⟩

/-! ### The legal words -/

theorem exists_decode_iff (w : Word) :
    (∃ i, decode w = .ok i) ↔
      zeroField w = 0#28 ∧ (opcodeField w).toNat ∈ [0x0, 0x1, 0x2, 0x4, 0x5, 0x6, 0x7, 0x8] := by
  simp only [decode_eq_ok_iff_fields, exists_and_left, exists_opcodeInstr_iff]

/-- The list of R91 is the words of the commands. -/
theorem mem_legalWords_iff (w : Word) : w ∈ legalWords ↔ ∃ i, w = encode i := by
  have hwords : legalWords = [.nop, .encode, .decode, .pack, .unpack, .embed, .extract, .coord].map encode := rfl
  have hall (i : Instr) : i ∈ [.nop, .encode, .decode, .pack, .unpack, .embed, .extract, .coord] := by
    cases i <;> decide
  rw [hwords, List.mem_map]
  exact ⟨fun ⟨i, _, h⟩ => ⟨i, h.symm⟩, fun ⟨i, h⟩ => ⟨i, hall i, h.symm⟩⟩

theorem wordLegal_iff (w : Word) : wordLegal w = true ↔ ∃ i, decode w = .ok i := by
  simp only [wordLegal, List.contains_iff_mem, mem_legalWords_iff, decode_eq_ok_iff]

/-- Settles O3: each command has its one word, and a legal word is its OPCODE. -/
theorem legalWordsExactly : Obligations.LegalWordsExactly := by
  intro w
  refine ⟨decode_eq_ok_iff, decode_eq_ok_iff, decode_eq_ok_iff, decode_eq_ok_iff, decode_eq_ok_iff, decode_eq_ok_iff,
    decode_eq_ok_iff, decode_eq_ok_iff, exists_decode_iff w, wordLegal_iff w, fun h => ?_⟩
  exact toNat_eq_opcodeField ((exists_decode_iff w).1 h).1

/-- Settles O1: the eight words are those of `encode`; the other four are evaluated. -/
theorem tableWordsDecode : Obligations.TableWordsDecode :=
  ⟨decode_encode .nop, decode_encode .encode, decode_encode .decode, decode_encode .pack, decode_encode .unpack,
    decode_encode .embed, decode_encode .extract, decode_encode .coord, by decide, by decide, by decide, by decide⟩

end Sys2Proof
end

section
/-! What a command leaves alone (30_encoding.md R96), read off `exec_cases`. -/

namespace Sys2Proof.Machine

/-- The registers that a command may write at all; everything else is as before. -/
theorem exec_writes {i : Instr} {s t : State} (h : exec i s = .next t) :
    t = { s with total := t.total, idx := t.idx, res := t.res, xpos := t.xpos, ypos := t.ypos, status := t.status } := by
  rcases exec_cases h with ⟨-, rfl⟩ | ⟨-, ⟨-, rfl⟩ | ⟨-, -, rfl⟩ | ⟨-, -, rfl⟩ | ⟨-, -, rfl⟩ | ⟨-, -, rfl⟩ |
    ⟨-, rfl⟩ | ⟨-, rfl⟩ | ⟨-, rfl⟩ | ⟨-, rfl⟩ | ⟨-, -, rfl⟩ | ⟨-, -, rfl⟩⟩ <;> rfl

/-- Only the two commands that start the sequencer write TOTAL and IDX, only the bit-packer's write RES, and only COORD
writes XPOS and YPOS (R96). -/
theorem exec_own_registers {i : Instr} {s t : State} (h : exec i s = .next t) :
    (i ≠ .encode → i ≠ .decode → t.total = s.total ∧ t.idx = s.idx) ∧
    (i ≠ .pack → i ≠ .unpack → i ≠ .embed → i ≠ .extract → t.res = s.res) ∧
    (i ≠ .coord → t.xpos = s.xpos ∧ t.ypos = s.ypos) := by
  rcases exec_cases h with ⟨-, rfl⟩ | ⟨-, ⟨rfl, rfl⟩ | ⟨rfl, -, rfl⟩ | ⟨rfl, -, rfl⟩ | ⟨rfl, -, rfl⟩ | ⟨rfl, -, rfl⟩ |
    ⟨rfl, rfl⟩ | ⟨rfl, rfl⟩ | ⟨rfl, rfl⟩ | ⟨rfl, rfl⟩ | ⟨rfl, -, rfl⟩ | ⟨rfl, -, rfl⟩⟩ <;> simp

/-- Settles O23: a command writes neither memory, no field of the host's and no register the host writes. -/
theorem commandFrame : Obligations.CommandFrame := by
  intro i s t h
  have hown := exec_own_registers h
  rw [exec_writes h] at hown ⊢
  exact ⟨⟨fun _ _ => rfl, fun _ => rfl⟩, ⟨rfl, rfl⟩, rfl, rfl, rfl, rfl, rfl, rfl, hown⟩

end Sys2Proof.Machine
end

section
/-! HIDE (30_encoding.md R105): ENCODE's start, then WAIT, whose polls alternate with the sequencer's steps (log 3). -/

namespace Sys2Proof.Machine

/-! ### ENCODE's steps under the invariant -/

theorem exec_encode_fits {s : State} (hb : s.status.busy = false) (hc : (tooLong s || tooBig s) = false) :
    exec .encode s = .next (start .enc (BitVec.ofNat 32 (total33 s)) s) := by
  simp only [exec, execEncode, whenIdle_of_idle hb, hc, Bool.false_eq_true, if_false]

/-- The mnemonic line of a command runs it (44_system.md R193). -/
theorem step_commandTurn {s : State} {i : Instr} {rest : List Turn} (h : s.agenda = commandTurn i :: rest) :
    step s = exec i (setAgenda rest s) := by
  rw [step_cons h]
  show dispatch (encode i) (setAgenda rest s) = _
  simp only [dispatch, decode_encode]

theorem seqTurn_enc_process {s : State} (h : Inv s) (hp : s.status.phase = .enc) (hi : s.idx.toNat < s.total.toNat) :
    seqTurn s = .next (encProcessed s) := by
  obtain ⟨-, hcap, -⟩ := (phaseInv_enc_iff hp).1 h.phase
  rw [seqTurn_enc hp, encStep, if_pos hi, encProcess_inGrid (hi.trans_le hcap)]

theorem seqTurn_enc_finish {s : State} (hp : s.status.phase = .enc) (hi : s.idx.toNat = s.total.toNat) :
    seqTurn s = .next (finish s) := by
  rw [seqTurn_enc hp, encStep, if_neg hi.not_lt, if_pos hi, encFinish]

/-! ### WAIT -/

/-- A poll that reads BUSY = 0 ends WAIT. -/
theorem step_wait_idle {s : State} {rest : List Turn} (ha : s.agenda = .wait :: rest) (hb : s.status.busy = false) :
    step s = .next (recordSeen (.reg 1#4 s.status.word) (setAgenda rest s)) := by
  rw [step_cons ha]
  simp [runTurn, waitPoll, hb, regRead_status]

/-- A poll that reads BUSY = 1 is followed by the sequencer's step and leaves WAIT to be run again. -/
theorem steps_wait_busy {s t : State} {rest : List Turn} (ha : s.agenda = .wait :: rest) (hb : s.status.busy = true)
    (ht : seqTurn s = .next t) :
    steps 2 s = .next (setAgenda (.wait :: rest) (recordSeen (.reg 1#4 s.status.word) t)) := by
  have hpoll : step s =
      .next (setAgenda (.seq :: .wait :: rest) (recordSeen (.reg 1#4 s.status.word) (setAgenda rest s))) := by
    rw [step_cons ha]
    simp [runTurn, waitPoll, hb, regRead_status]
  rw [steps_succ hpoll, steps_one, step_cons rfl]
  show seqTurn (setAgenda (.wait :: rest) (recordSeen _ s)) = _
  rw [seqTurn_setAgenda, seqTurn_recordSeen, ht]
  rfl

/-- STATUS after a command without error, as the port shows it (10_state.md R36). -/
theorem ended_none_word : (Status.ended .none).word = 0x00000002#32 := by decide

/-- What WAIT leaves when the command it waited for has ended without error and with IDX = TOTAL. -/
structure WaitEnded (rest : List Turn) (total : Word) (t : State) : Prop where
  agenda : t.agenda = rest
  seen : t.seen.head? = some (.reg 1#4 0x00000002#32)
  status : t.status = Status.ended .none
  idx : t.idx = total
  total : t.total = total

/-- WAIT over a running ENCODE ends: `k` processing steps and the finish step, each after a poll, then the last poll. -/
theorem wait_ends_encode {k : Nat} {s : State} {rest : List Turn} (h : Inv s) (hp : s.status.phase = .enc)
    (ha : s.agenda = .wait :: rest) (hk : s.idx.toNat + k = s.total.toNat) :
    ∃ t, steps (2 * (k + 1) + 1) s = .next t ∧ WaitEnded rest s.total t := by
  have hb : s.status.busy = true := (busy_eq_true_iff _).2 (by simp [hp])
  induction k generalizing s with
  | zero =>
    have hround := steps_wait_busy ha hb (seqTurn_enc_finish hp hk)
    have hpoll := step_wait_idle (s := setAgenda (.wait :: rest) (recordSeen (.reg 1#4 s.status.word) (finish s))) rfl rfl
    exact ⟨_, (steps_add hround 1).trans ((steps_one _).trans hpoll),
      ⟨rfl, congrArg (fun w => some (Seen.reg 1#4 w)) ended_none_word, rfl, BitVec.eq_of_toNat_eq hk, rfl⟩⟩
  | succ k ih =>
    have hi : s.idx.toNat < s.total.toNat := by omega
    have hnext : (s.idx + 1#32).toNat + k = s.total.toNat := by
      rw [succ_toNat hi s.total.isLt]
      omega
    have hround := steps_wait_busy ha hb (seqTurn_enc_process h hp hi)
    obtain ⟨t, ht, hend⟩ :=
      ih (setAgenda_inv (recordSeen_inv (encProcessed_inv h hp hi) _) _) hp rfl hnext hb
    refine ⟨t, ?_, hend⟩
    rw [show 2 * (k + 1 + 1) + 1 = 2 + (2 * (k + 1) + 1) by omega, steps_add hround, ht]

/-- Settles O52: ENCODE's start opens its phase at IDX = 0, and WAIT polls until TOTAL + 1 sequencer steps are done. -/
theorem hideEndsWithDoneRead : Obligations.HideEndsWithDoneRead := by
  intro s h hb ha hlen hcap
  have hc : (tooLong s || tooBig s) = false := (capacity_fits_iff s).2 ⟨hlen, hcap⟩
  have hstart : step s = .next (start .enc (BitVec.ofNat 32 (total33 s)) (setAgenda [.wait] s)) :=
    (step_commandTurn ha).trans (exec_encode_fits hb hc)
  have hrounds : (0#32 : Word).toNat + (s.msgLen.toNat + 4) = (BitVec.ofNat 32 (total33 s)).toNat := by
    rw [total33_toNat hlen, BitVec.toNat_zero, Nat.zero_add]
  obtain ⟨t, ht, hend⟩ := wait_ends_encode (start_enc_inv (setAgenda_inv h [.wait]) hc) rfl rfl hrounds
  refine ⟨t, ?_, hend.agenda, hend.seen, ?_, hend.idx.trans hend.total.symm, hend.status⟩
  · rw [show 1 + 2 * (s.msgLen.toNat + 5) + 1 = 2 * (s.msgLen.toNat + 4 + 1) + 1 + 1 by omega, steps_succ hstart]
    exact ht
  · rw [hend.idx]
    exact total33_toNat hlen

end Sys2Proof.Machine
end

section
/-! The bit-packer (40_bitpack.md): its functions as bit fields, channel by channel, and the laws of R125 to R129. -/

namespace Sys2Proof.Machine

/-! ### Bit fields -/

theorem extractLsb'_extractLsb'_of_add_le {w a n b m : Nat} (x : BitVec w) (h : b + m ≤ n) :
    (x.extractLsb' a n).extractLsb' b m = x.extractLsb' (a + b) m := by
  apply BitVec.eq_of_getLsbD_eq
  intro i hi
  have hin : b + i < n := by omega
  simp [hi, hin, Nat.add_assoc]

theorem ushiftRight_setWidth {w : Nat} (x : BitVec w) (i n : Nat) : (x >>> i).setWidth n = x.extractLsb' i n :=
  BitVec.eq_of_toNat_eq (by simp)

/-- Masking the low `n` bits off and ORing `n` new bits in replaces them. -/
theorem and_high_or_setWidth {m n : Nat} (c : BitVec (m + n)) (g : BitVec n) :
    (c &&& (BitVec.allOnes m ++ 0#n)) ||| g.setWidth (m + n) = c.extractLsb' n m ++ g := by
  have hg : g.setWidth (m + n) = 0#m ++ g := BitVec.eq_of_toNat_eq <| by
    rw [BitVec.toNat_setWidth_of_le (Nat.le_add_left n m), BitVec.toNat_append, BitVec.toNat_zero, Nat.zero_shiftLeft,
      Nat.zero_or]
  rw [hg, ← BitVec.extractLsb'_append_extractLsb' (x := c), BitVec.and_append, BitVec.or_append,
    BitVec.extractLsb'_append_eq_left, BitVec.and_allOnes, BitVec.and_zero, BitVec.zero_or, BitVec.or_zero]

/-- Two numbers with the same high bits differ by less than `2 ^ n` in their low `n`. -/
theorem append_toNat_sub_le {m n : Nat} (h : BitVec m) (a b : BitVec n) :
    ((h ++ a).toNat : Int) - (h ++ b).toNat ≤ 2 ^ n - 1 := by
  have ha : (a.toNat : Int) < 2 ^ n := by exact_mod_cast a.isLt
  simp only [BitVec.toNat_append, ← Nat.shiftLeft_add_eq_or_of_lt a.isLt, ← Nat.shiftLeft_add_eq_or_of_lt b.isLt]
  push_cast
  omega

/-- A byte is its three bit groups (R120). -/
theorem byte_eq_groups (b : Byte) : b.extractLsb' 5 3 ++ b.extractLsb' 2 3 ++ b.extractLsb' 0 2 = b := by
  rw [BitVec.extractLsb'_append_extractLsb'_eq_extractLsb' (by decide),
    BitVec.extractLsb'_append_extractLsb'_eq_extractLsb' (by decide), BitVec.extractLsb'_eq_self]

theorem byte_ext {a b : Byte} (hr : a.extractLsb' 5 3 = b.extractLsb' 5 3) (hg : a.extractLsb' 2 3 = b.extractLsb' 2 3)
    (hb : a.extractLsb' 0 2 = b.extractLsb' 0 2) : a = b := by
  rw [← byte_eq_groups a, hr, hg, hb, byte_eq_groups]

/-- A pixel word is its three channels (20_memory.md R61). -/
theorem pixel_eq_channels (p : Pixel) : red p ++ green p ++ blue p = p := by
  unfold red green blue
  rw [BitVec.extractLsb'_append_extractLsb'_eq_extractLsb' (by decide),
    BitVec.extractLsb'_append_extractLsb'_eq_extractLsb' (by decide), BitVec.extractLsb'_eq_self]

theorem pixel_ext {p q : Pixel} (hr : red p = red q) (hg : green p = green q) (hb : blue p = blue q) : p = q := by
  rw [← pixel_eq_channels p, hr, hg, hb, pixel_eq_channels]

/-! ### Each function on each channel and group -/

theorem pack_eq (b : Byte) : pack b = (b.extractLsb' 5 3, b.extractLsb' 2 3, b.extractLsb' 0 2) := by
  have hthree : (0b111#8).setWidth 3 = BitVec.allOnes 3 := rfl
  have htwo : (0b11#8).setWidth 2 = BitVec.allOnes 2 := rfl
  rw [pack, BitVec.setWidth_and, BitVec.setWidth_and, hthree, htwo, BitVec.and_allOnes, BitVec.and_allOnes,
    ushiftRight_setWidth, ushiftRight_setWidth, ← ushiftRight_setWidth b 0, BitVec.ushiftRight_zero]

theorem embed_eq_channels (p : Pixel) (b : Byte) :
    embed p b = ((red p).extractLsb' 3 5 ++ b.extractLsb' 5 3) ++ ((green p).extractLsb' 3 5 ++ b.extractLsb' 2 3) ++
      ((blue p).extractLsb' 2 6 ++ b.extractLsb' 0 2) := by
  simp only [red, green, blue, extractLsb'_extractLsb'_of_add_le _ (show 3 + 5 ≤ 8 by decide),
    extractLsb'_extractLsb'_of_add_le _ (show 2 + 6 ≤ 8 by decide), embed_eq]
  apply BitVec.eq_of_toNat_eq
  simp only [BitVec.toNat_append, Nat.shiftLeft_or_distrib, ← Nat.shiftLeft_add, Nat.or_assoc]

theorem red_append (r g b : Byte) : red (r ++ g ++ b) = r := by
  rw [red, BitVec.extractLsb'_append_eq_of_le (by decide), BitVec.extractLsb'_append_eq_left]

theorem green_append (r g b : Byte) : green (r ++ g ++ b) = g := by
  rw [green, BitVec.extractLsb'_append_eq_of_le (by decide), BitVec.extractLsb'_append_eq_right]

theorem blue_append (r g b : Byte) : blue (r ++ g ++ b) = b := BitVec.extractLsb'_append_eq_right

/-! Embed on each channel: the channel's high bits, then its group of the byte (R123, R128). -/

@[simp] theorem red_embed (p : Pixel) (b : Byte) : red (embed p b) = (red p).extractLsb' 3 5 ++ b.extractLsb' 5 3 := by
  rw [embed_eq_channels, red_append]

@[simp] theorem green_embed (p : Pixel) (b : Byte) :
    green (embed p b) = (green p).extractLsb' 3 5 ++ b.extractLsb' 2 3 := by
  rw [embed_eq_channels, green_append]

@[simp] theorem blue_embed (p : Pixel) (b : Byte) : blue (embed p b) = (blue p).extractLsb' 2 6 ++ b.extractLsb' 0 2 := by
  rw [embed_eq_channels, blue_append]

/-! Extract on each group: the low bits of its channel (R124, R128). -/

theorem extract_eq_channels (p : Pixel) :
    extract p = (red p).extractLsb' 0 3 ++ (green p).extractLsb' 0 3 ++ (blue p).extractLsb' 0 2 := by
  simp only [red, green, blue, extractLsb'_extractLsb'_of_add_le _ (show 0 + 3 ≤ 8 by decide),
    extractLsb'_extractLsb'_of_add_le _ (show 0 + 2 ≤ 8 by decide), extract_eq]

theorem redGroup_append (r g : BitVec 3) (b : BitVec 2) : (r ++ g ++ b).extractLsb' 5 3 = r := by
  rw [BitVec.extractLsb'_append_eq_of_le (by decide), BitVec.extractLsb'_append_eq_left]

theorem greenGroup_append (r g : BitVec 3) (b : BitVec 2) : (r ++ g ++ b).extractLsb' 2 3 = g := by
  rw [BitVec.extractLsb'_append_eq_of_le (by decide), BitVec.extractLsb'_append_eq_right]

theorem blueGroup_append (r g : BitVec 3) (b : BitVec 2) : (r ++ g ++ b).extractLsb' 0 2 = b :=
  BitVec.extractLsb'_append_eq_right

@[simp] theorem extract_redGroup (p : Pixel) : (extract p).extractLsb' 5 3 = (red p).extractLsb' 0 3 := by
  rw [extract_eq_channels, redGroup_append]

@[simp] theorem extract_greenGroup (p : Pixel) : (extract p).extractLsb' 2 3 = (green p).extractLsb' 0 3 := by
  rw [extract_eq_channels, greenGroup_append]

@[simp] theorem extract_blueGroup (p : Pixel) : (extract p).extractLsb' 0 2 = (blue p).extractLsb' 0 2 := by
  rw [extract_eq_channels, blueGroup_append]

/-! ### The laws -/

/-- Settles O34: both ways are the identity on 3 + 3 + 2 bits. -/
theorem packUnpackInverse : Obligations.PackUnpackInverse := by
  refine ⟨fun b => ?_, fun r g b => ?_⟩
  · rw [pack_eq, unpack_eq, byte_eq_groups]
  · rw [unpack_eq, pack_eq, redGroup_append, greenGroup_append, blueGroup_append]

/-- The core round-trip invariant (R126). -/
@[simp] theorem extract_embed (p : Pixel) (b : Byte) : extract (embed p b) = b := by
  apply byte_ext
  · rw [extract_redGroup, red_embed, BitVec.extractLsb'_append_eq_right]
  · rw [extract_greenGroup, green_embed, BitVec.extractLsb'_append_eq_right]
  · rw [extract_blueGroup, blue_embed, BitVec.extractLsb'_append_eq_right]

/-- Settles O35: on each bit group Extract reads back what Embed put there. -/
theorem extractAfterEmbed : Obligations.ExtractAfterEmbed := extract_embed

/-- Settles O36: on each channel the mask keeps the high bits and the OR brings the packed group in. -/
theorem embedChannelByChannel : Obligations.EmbedChannelByChannel := by
  intro p b
  rw [red_embed, green_embed, blue_embed, pack_eq]
  exact ⟨rfl, (and_high_or_setWidth (m := 5) (n := 3) _ _).symm, (and_high_or_setWidth (m := 5) (n := 3) _ _).symm,
    (and_high_or_setWidth (m := 6) (n := 2) _ _).symm⟩

/-- Replacing the low `n` bits of `c` moves it by less than `2 ^ n` either way and keeps its high bits. -/
theorem replaceLow_distortion {m n : Nat} (c : BitVec (m + n)) (g : BitVec n) :
    ((c.extractLsb' n m ++ g).toNat : Int) - c.toNat ≤ 2 ^ n - 1 ∧
    (c.toNat : Int) - (c.extractLsb' n m ++ g).toNat ≤ 2 ^ n - 1 ∧
    (c.extractLsb' n m ++ g).extractLsb' n m = c.extractLsb' n m := by
  have hc : c.toNat = (c.extractLsb' n m ++ c.extractLsb' 0 n).toNat := by rw [BitVec.extractLsb'_append_extractLsb']
  rw [hc]
  exact ⟨append_toNat_sub_le _ _ _, append_toNat_sub_le _ _ _, BitVec.extractLsb'_append_eq_left⟩

/-- Settles O37: on each channel Embed replaces the low bits and no others. -/
theorem distortionBound : Obligations.DistortionBound := by
  refine ⟨fun p b => ?_, by decide, by decide⟩
  rw [red_embed, green_embed, blue_embed]
  obtain ⟨hr, hr', hred⟩ := replaceLow_distortion (m := 5) (red p) (b.extractLsb' 5 3)
  obtain ⟨hg, hg', hgreen⟩ := replaceLow_distortion (m := 5) (green p) (b.extractLsb' 2 3)
  obtain ⟨hb, hb', hblue⟩ := replaceLow_distortion (m := 6) (blue p) (b.extractLsb' 0 2)
  exact ⟨hr, hr', hg, hg', hb, hb', hred, hgreen, hblue⟩

/-- Settles O39: each channel of Embed and each group of Extract is a function of its own lane. -/
theorem lanesAreIndependent : Obligations.LanesAreIndependent := by
  intro p q a b
  refine ⟨fun hc hg => ?_, fun hc hg => ?_, fun hc hg => ?_⟩
  · rw [red_embed, red_embed, extract_redGroup, extract_redGroup, hc, hg]
    exact ⟨rfl, rfl⟩
  · rw [green_embed, green_embed, extract_greenGroup, extract_greenGroup, hc, hg]
    exact ⟨rfl, rfl⟩
  · rw [blue_embed, blue_embed, extract_blueGroup, extract_blueGroup, hc, hg]
    exact ⟨rfl, rfl⟩

/-- A second Embed overwrites the first (R129 (a)). -/
theorem embed_embed (p : Pixel) (a b : Byte) : embed (embed p a) b = embed p b := by
  apply pixel_ext
  · simp only [red_embed, BitVec.extractLsb'_append_eq_left]
  · simp only [green_embed, BitVec.extractLsb'_append_eq_left]
  · simp only [blue_embed, BitVec.extractLsb'_append_eq_left]

/-- A pixel that gets its own byte back stays as it is (R129 (b)). -/
theorem embed_extract (p : Pixel) : embed p (extract p) = p := by
  apply pixel_ext
  · rw [red_embed, extract_redGroup]
    exact BitVec.extractLsb'_append_extractLsb'
  · rw [green_embed, extract_greenGroup]
    exact BitVec.extractLsb'_append_extractLsb'
  · rw [blue_embed, extract_blueGroup]
    exact BitVec.extractLsb'_append_extractLsb'

theorem embed_eq_self_iff (p : Pixel) (b : Byte) : embed p b = p ↔ extract p = b :=
  ⟨fun h => by rw [← h, extract_embed], fun h => by rw [← h, embed_extract]⟩

theorem embed_zero (b : Byte) : embed 0x000000#24 b = packWord b := by
  rw [embed, BitVec.zero_and, BitVec.zero_or]

/-! ### How many pixel words carry a byte (R129 (e)) -/

/-- The pixel words, as numbers, that Extract maps to `b`. -/
def carriersOf (b : Byte) : Finset Nat := (Finset.range (2 ^ 24)).filter fun n => extract (BitVec.ofNat 24 n) = b

theorem mem_carriersOf {b : Byte} {n : Nat} : n ∈ carriersOf b ↔ n < 2 ^ 24 ∧ extract (BitVec.ofNat 24 n) = b := by
  rw [carriersOf, Finset.mem_filter, Finset.mem_range]

/-- Embedding `b` turns a carrier of any byte into one of `b`. -/
theorem embed_toNat_mem_carriersOf (p : Pixel) (b : Byte) : (embed p b).toNat ∈ carriersOf b := by
  rw [mem_carriersOf, BitVec.ofNat_toNat, BitVec.setWidth_eq, extract_embed]
  exact ⟨(embed p b).isLt, rfl⟩

/-- Embedding the old byte again undoes an Embed. -/
theorem embed_embed_toNat {a : Byte} {n : Nat} (h : n ∈ carriersOf a) (b : Byte) :
    (embed (BitVec.ofNat 24 (embed (BitVec.ofNat 24 n) b).toNat) a).toNat = n := by
  obtain ⟨hn, rfl⟩ := mem_carriersOf.1 h
  rw [BitVec.ofNat_toNat, BitVec.setWidth_eq, embed_embed, embed_extract, BitVec.toNat_ofNat, Nat.mod_eq_of_lt hn]

/-- Embed is a bijection between the carriers of any two bytes. -/
theorem card_carriersOf_eq (a b : Byte) : (carriersOf a).card = (carriersOf b).card :=
  Finset.card_nbij' (fun n => (embed (BitVec.ofNat 24 n) b).toNat) (fun n => (embed (BitVec.ofNat 24 n) a).toNat)
    (fun _ _ => embed_toNat_mem_carriersOf _ b) (fun _ _ => embed_toNat_mem_carriersOf _ a)
    (fun _ h => embed_embed_toNat h b) (fun _ h => embed_embed_toNat h a)

/-- The 256 bytes. -/
def allBytes : Finset Byte := Finset.univ.map BitVec.equivFin.symm.toEquiv.toEmbedding

theorem mem_allBytes (b : Byte) : b ∈ allBytes := by simp [allBytes]

theorem card_allBytes : allBytes.card = 2 ^ 8 := by rw [allBytes, Finset.card_map, Finset.card_univ, Fintype.card_fin]

/-- The 2^24 pixel words fall into 256 equal classes. -/
theorem card_carriersOf (b : Byte) : (carriersOf b).card = 2 ^ 16 := by
  have hsum : 2 ^ 24 = 2 ^ 8 * (carriersOf b).card := calc
    2 ^ 24 = (Finset.range (2 ^ 24)).card := (Finset.card_range _).symm
    _ = ∑ c ∈ allBytes, (carriersOf c).card := Finset.card_eq_sum_card_fiberwise fun _ _ => mem_allBytes _
    _ = ∑ _c ∈ allBytes, (carriersOf b).card := Finset.sum_congr rfl fun c _ => card_carriersOf_eq c b
    _ = 2 ^ 8 * (carriersOf b).card := by rw [Finset.sum_const, card_allBytes, smul_eq_mul]
  omega

/-- Settles O38: overwriting and the fixed point channel by channel, and equal classes for the count. -/
theorem embedLaws : Obligations.EmbedLaws :=
  ⟨embed_embed, embed_extract, embed_eq_self_iff, fun b => ⟨by rw [← embed_zero, extract_embed], embed_zero b⟩,
    card_carriersOf⟩

end Sys2Proof.Machine
end

section
/-! The bit-packer's four commands (40_bitpack.md R130 to R133): each ends in the step of its CMD write, with its result in
RES and STATUS showing no error. -/

namespace Sys2Proof.Machine

/-! ### What each command answers while idle -/

theorem exec_pack_idle {s : State} (h : s.status.busy = false) :
    exec .pack s = .next (finish (setRes (zext32 (packWord (byteOperand s))) s)) := by
  rw [exec, execPack, whenIdle_of_idle h]

theorem exec_unpack_idle {s : State} (h : s.status.busy = false) :
    exec .unpack s = .next (finish (setRes (zext32 (unpack (tripleR s) (tripleG s) (tripleB s))) s)) := by
  rw [exec, execUnpack, whenIdle_of_idle h]

theorem exec_embed_idle {s : State} (h : s.status.busy = false) :
    exec .embed s = .next (finish (setRes (zext32 (embed (pixelOperand s) (byteOperand s))) s)) := by
  rw [exec, execEmbed, whenIdle_of_idle h]

theorem exec_extract_idle {s : State} (h : s.status.busy = false) :
    exec .extract s = .next (finish (setRes (zext32 (extract (pixelOperand s))) s)) := by
  rw [exec, execExtract, whenIdle_of_idle h]

/-! ### The results as bit fields of the operands -/

/-- A result's word is the one of the same value (00_scope.md R9). -/
theorem zext32_eq_of_toNat_eq {n : Nat} (hn : n ≤ 32) {v : BitVec n} {w : Word} (h : v.toNat = w.toNat) : zext32 v = w :=
  BitVec.eq_of_toNat_eq ((BitVec.toNat_setWidth_of_le hn).trans h)

theorem byteOperand_field {i n : Nat} (s : State) (h : i + n ≤ 8) :
    (byteOperand s).extractLsb' i n = s.opb.extractLsb' i n := BitVec.extractLsb'_extractLsb'_of_le h

theorem pixelOperand_field {i n : Nat} (s : State) (h : i + n ≤ 24) :
    (pixelOperand s).extractLsb' i n = s.opa.extractLsb' i n := BitVec.extractLsb'_extractLsb'_of_le h

/-- Extract reads of the pixel operand the three fields that are the triple operand (R131, R133). -/
theorem extract_pixelOperand (s : State) : extract (pixelOperand s) = unpack (tripleR s) (tripleG s) (tripleB s) := by
  rw [extract, pixelOperand_field s (by decide), pixelOperand_field s (by decide), pixelOperand_field s (by decide)]
  rfl

/-- Settles O16: the triple word of the byte operand, with eight more zeros in front. -/
theorem packWritesTheTripleWord : Obligations.PackWritesTheTripleWord := by
  refine ⟨decode_encode .pack, fun s hb => ?_⟩
  have hres : zext32 (packWord (byteOperand s)) =
      0#13 ++ s.opb.extractLsb' 5 3 ++ 0#5 ++ s.opb.extractLsb' 2 3 ++ 0#6 ++ s.opb.extractLsb' 0 2 := by
    rw [packWord_eq, byteOperand_field s (by decide), byteOperand_field s (by decide), byteOperand_field s (by decide)]
    refine zext32_eq_of_toNat_eq (by decide) ?_
    simp only [BitVec.toNat_append, BitVec.toNat_zero, Nat.zero_shiftLeft, Nat.zero_or]
  rw [exec_pack_idle hb, hres]
  rfl

/-- The result of UNPACK and of EXTRACT (R131, R133). -/
theorem zext32_unpack_triple (s : State) : zext32 (unpack (tripleR s) (tripleG s) (tripleB s)) =
    0#24 ++ s.opa.extractLsb' 16 3 ++ s.opa.extractLsb' 8 3 ++ s.opa.extractLsb' 0 2 := by
  rw [unpack_eq]
  refine zext32_eq_of_toNat_eq (by decide) ?_
  simp only [tripleR, tripleG, tripleB, BitVec.toNat_append, BitVec.toNat_zero, Nat.zero_shiftLeft, Nat.zero_or]

theorem exec_unpack_eq_exec_extract {s : State} (h : s.status.busy = false) : exec .unpack s = exec .extract s := by
  rw [exec_unpack_idle h, exec_extract_idle h, extract_pixelOperand]

/-- Settles O17: the two commands read the same three fields of OPA. -/
theorem unpackJoinsTheTriple : Obligations.UnpackJoinsTheTriple := by
  refine ⟨decode_encode .unpack, fun s hb => ⟨?_, exec_unpack_eq_exec_extract hb⟩⟩
  rw [exec_unpack_idle hb, zext32_unpack_triple]
  rfl

/-- Settles O18: Embed's six fields, of the pixel operand and the byte operand in turn. -/
theorem embedReplacesTheLowBits : Obligations.EmbedReplacesTheLowBits := by
  refine ⟨decode_encode .embed, fun s hb => ?_⟩
  have hres : zext32 (embed (pixelOperand s) (byteOperand s)) =
      0#8 ++ s.opa.extractLsb' 19 5 ++ s.opb.extractLsb' 5 3 ++ s.opa.extractLsb' 11 5 ++ s.opb.extractLsb' 2 3 ++
        s.opa.extractLsb' 2 6 ++ s.opb.extractLsb' 0 2 := by
    rw [embed_eq, pixelOperand_field s (by decide), pixelOperand_field s (by decide), pixelOperand_field s (by decide),
      byteOperand_field s (by decide), byteOperand_field s (by decide), byteOperand_field s (by decide)]
    refine zext32_eq_of_toNat_eq (by decide) ?_
    simp only [BitVec.toNat_append, BitVec.toNat_zero, Nat.zero_shiftLeft, Nat.zero_or]
  rw [exec_embed_idle hb, hres]
  rfl

/-- Settles O19: Extract of the pixel operand is Unpack of the triple operand. -/
theorem extractJoinsTheLowBits : Obligations.ExtractJoinsTheLowBits := by
  refine ⟨decode_encode .extract, fun s hb => ?_⟩
  rw [exec_extract_idle hb, extract_pixelOperand, zext32_unpack_triple]
  rfl

end Sys2Proof.Machine
end

section
/-! The address generator (41_addrgen.md): coord is division with remainder, hence its laws R140 to R143, and the
command COORD (R144). -/

namespace Sys2Proof.Machine

/-! ### coord as division with remainder -/

/-- The pair of coord is the quotient and remainder of the index, whatever the width. -/
theorem coord_recompose (i w : Word) : (coord i w).2.toNat * w.toNat + (coord i w).1.toNat = i.toNat := by
  rw [coord_fst_toNat, coord_snd_toNat, Nat.div_add_mod']

theorem coord_fst_lt {w : Word} (hw : 1 ≤ w.toNat) (i : Word) : (coord i w).1.toNat < w.toNat := by
  rw [coord_fst_toNat]
  exact Nat.mod_lt _ hw

/-- A row is no larger than its index (R143: the row counter does not wrap before the index does). -/
theorem coord_snd_le (i w : Word) : (coord i w).2.toNat ≤ i.toNat := by
  rw [coord_snd_toNat]
  exact Nat.div_le_self _ _

/-- Quotient and remainder are unique: a column inside the width belongs to the index `y × width + x` alone (R142). -/
theorem coord_eq_mk_iff {i w x y : Word} (hx : x.toNat < w.toNat) :
    coord i w = (x, y) ↔ i.toNat = y.toNat * w.toNat + x.toNat := by
  have hw : 0 < w.toNat := Nat.zero_lt_of_lt hx
  rw [Prod.ext_iff, ← BitVec.toNat_inj, ← BitVec.toNat_inj, coord_fst_toNat, coord_snd_toNat, and_comm,
    Nat.div_mod_unique hw, and_iff_left hx, Nat.add_comm, Nat.mul_comm, eq_comm]

theorem coord_inj {i j w : Word} (h : coord i w = coord j w) : i = j :=
  BitVec.eq_of_toNat_eq (by rw [← coord_recompose i w, h, coord_recompose])

/-! ### The laws -/

/-- Settles O40: the remainder and the quotient of natural numbers, and their recomposition. -/
theorem coordIsDivision : Obligations.CoordIsDivision := fun idx width hw =>
  ⟨coord_fst_toNat idx width, coord_snd_toNat idx width, (coord_recompose idx width).symm, coord_fst_lt hw idx⟩

/-- Settles O41: a quotient by `width` is below `height` exactly if the index is below `width × height`. -/
theorem coordRange : Obligations.CoordRange := by
  intro idx width height hw
  have hrow : (coord idx width).2.toNat < height ↔ idx.toNat < width.toNat * height := by
    rw [coord_snd_toNat, Nat.div_lt_iff_lt_mul hw, Nat.mul_comm]
  exact ⟨fun h => ⟨Nat.le_sub_one_of_lt (coord_fst_lt hw idx), Nat.le_sub_one_of_lt (hrow.2 h)⟩,
    fun h => Nat.le_of_not_lt fun hy => Nat.not_lt.2 h (hrow.1 hy)⟩

/-- Settles O42: uniqueness of quotient and remainder, and their recomposition. -/
theorem coordInverse : Obligations.CoordInverse := by
  refine fun width _ => ⟨fun x y hx hi => (coord_eq_mk_iff hx).2 ?_, fun idx => coord_recompose idx width,
    fun _ _ => coord_inj⟩
  rw [BitVec.toNat_ofNat, Nat.mod_eq_of_lt hi]

/-- At the end of a row the next index opens the next row (R143). -/
theorem coord_succ_of_last {i w : Word} (hw : 1 ≤ w.toNat) (hi : i.toNat + 1 < 2 ^ 32)
    (hx : (coord i w).1.toNat + 1 = w.toNat) : coord (i + 1#32) w = (0#32, (coord i w).2 + 1#32) := by
  refine (coord_eq_mk_iff (x := 0#32) hw).2 ?_
  rw [succ_toNat (Nat.lt_succ_self _) hi, succ_toNat (Nat.lt_succ_of_le (coord_snd_le i w)) hi, Nat.succ_mul,
    ← coord_recompose i w, Nat.add_assoc, hx]
  rfl

/-- Before the end of a row the next index is the next column (R143). -/
theorem coord_succ_of_lt {i w : Word} (hi : i.toNat + 1 < 2 ^ 32) (hx : (coord i w).1.toNat + 1 < w.toNat) :
    coord (i + 1#32) w = ((coord i w).1 + 1#32, (coord i w).2) := by
  have hcol : ((coord i w).1 + 1#32).toNat = (coord i w).1.toNat + 1 := succ_toNat (Nat.lt_of_succ_lt hx) w.isLt
  refine (coord_eq_mk_iff (hcol.trans_lt hx)).2 ?_
  rw [succ_toNat (Nat.lt_succ_self _) hi, hcol, ← coord_recompose i w, Nat.add_assoc]

/-- `width - 1` names the last column. -/
theorem eq_sub_one_iff {x w : Word} (hw : 1 ≤ w.toNat) : x = w - 1#32 ↔ x.toNat + 1 = w.toNat := by
  bv_omega

/-- Settles O43: the next index is one column on, or at column 0 of the next row. -/
theorem coordCounts : Obligations.CoordCounts := by
  refine fun width hw => ⟨(coord_eq_mk_iff (x := 0#32) hw).2 (by simp), fun idx hi => ?_⟩
  split
  · next hx => exact coord_succ_of_last hw hi ((eq_sub_one_iff hw).1 hx)
  · next hx =>
    have hne : (coord idx width).1.toNat + 1 ≠ width.toNat := fun e => hx ((eq_sub_one_iff hw).2 e)
    exact coord_succ_of_lt hi (Nat.lt_of_le_of_ne (coord_fst_lt hw idx) hne)

/-! ### The command COORD -/

theorem exec_coord_inside {s : State} (hb : s.status.busy = false) (h : s.opa.toNat < cap s) :
    exec .coord s = .next (finish (setPos (coord s.opa s.width).1 (coord s.opa s.width).2 s)) := by
  rw [exec, execCoord, whenIdle_of_idle hb, indexOperand, if_neg (Nat.not_le.2 h)]

theorem exec_coord_outside {s : State} (hb : s.status.busy = false) (h : cap s ≤ s.opa.toNat) :
    exec .coord s = .next (fail .outOfBounds s) := by
  rw [exec, execCoord, whenIdle_of_idle hb, indexOperand, if_pos h]

/-- Settles O20: below CAP the coordinates of OPA, which are inside the grid; else the error writes STATUS alone. -/
theorem coordWritesColumnAndRow : Obligations.CoordWritesColumnAndRow := by
  refine ⟨decode_encode .coord, fun s hb => ⟨fun h => ?_, fun h => exec_coord_outside hb h⟩⟩
  obtain ⟨hx, hy⟩ := inGrid_iff.1 (coord_inGrid h)
  exact ⟨_, exec_coord_inside hb h, rfl, coord_fst_toNat _ _, coord_snd_toNat _ _, hx, hy⟩

end Sys2Proof.Machine
end

section
/-! Interleavings (44_system.md R200, R201): the host's turns during a command show in its own records alone, so every
schedule ends where the sequencer, running by itself, ends. -/

namespace Sys2Proof.Machine

/-! ### The host's part of the state -/

/-- `s` with the turns `as` to come and the reads `vs` made since. -/
def heard (as : List Turn) (vs : List Seen) (s : State) : State := { s with agenda := as, seen := vs ++ s.seen }

theorem heard_nil (as : List Turn) (s : State) : heard as [] s = setAgenda as s := rfl

theorem heard_cons (as : List Turn) (v : Seen) (vs : List Seen) (s : State) :
    heard as (v :: vs) s = recordSeen v (heard as vs s) := rfl

/-- The sequencer reads nothing of the host's part. -/
theorem seqTurn_heard (as : List Turn) (vs : List Seen) (s : State) :
    seqTurn (heard as vs s) = mapNext (heard as vs) (seqTurn s) := by
  induction vs with
  | nil => exact seqTurn_setAgenda as s
  | cons v vs ih =>
    rw [heard_cons, seqTurn_recordSeen, ih]
    cases seqTurn s <;> rfl

/-! ### The sequencer's runs -/

/-- In `s` the turn changes the host's part of the state alone. -/
def Unobtrusive (u : Turn) (s : State) : Prop :=
  ∀ as vs, ∃ vs', runTurn u (heard as vs s) = .next (heard as vs' s)

/-- `k` steps of the sequencer lead from `s` to `t`, and before each of them every admitted turn of the host is
unobtrusive. -/
inductive SeqRun (admitted : Turn → Bool) : Nat → State → State → Prop where
  | refl (s : State) : SeqRun admitted 0 s s
  | head {k : Nat} {s s' t : State} (quiet : ∀ u, admitted u = true → u ≠ .seq → Unobtrusive u s)
      (turn : seqTurn s = .next s') (run : SeqRun admitted k s' t) : SeqRun admitted (k + 1) s t

theorem SeqRun.trans {admitted : Turn → Bool} {j k : Nat} {s t u : State} (h : SeqRun admitted j s t)
    (h' : SeqRun admitted k t u) : SeqRun admitted (j + k) s u := by
  induction h with
  | refl s => rwa [Nat.zero_add]
  | head quiet turn _ ih =>
    rw [Nat.add_right_comm]
    exact .head quiet turn (ih h')

theorem SeqRun.single {admitted : Turn → Bool} {s t : State}
    (quiet : ∀ u, admitted u = true → u ≠ .seq → Unobtrusive u s) (turn : seqTurn s = .next t) :
    SeqRun admitted 1 s t := .head quiet turn (.refl t)

theorem SeqRun.inv {admitted : Turn → Bool} {k : Nat} {s t : State} (h : SeqRun admitted k s t) (hi : Inv s) :
    Inv t := by
  induction h with
  | refl => exact hi
  | head _ turn _ ih => exact ih (seqTurn_inv hi turn)

/-- With an empty agenda the sequencer runs alone. -/
theorem SeqRun.steps_alone {admitted : Turn → Bool} {k : Nat} {s t : State} (h : SeqRun admitted k s t)
    (ha : s.agenda = []) : steps k s = .next t := by
  induction h with
  | refl s => exact steps_zero s
  | head _ turn _ ih => rw [steps_succ ((step_nil ha).trans turn), ih ((seqTurn_host turn).1.trans ha)]

/-! ### Schedules -/

variable {admitted : Turn → Bool} {k : Nat} {u : Turn} {us : List Turn}

theorem Schedule.pos (h : Schedule admitted k us) : 0 < k := by
  rw [← h.sequencer]
  exact List.count_pos_iff.2 (List.mem_of_getLast? h.last)

theorem Schedule.tail (h : Schedule admitted k (u :: us)) (hne : us ≠ []) : Schedule admitted (us.count .seq) us where
  admitted t ht := h.admitted t (List.mem_cons_of_mem u ht)
  sequencer := rfl
  last := by rw [← h.last, List.getLast?_cons_of_ne_nil hne]

/-- A turn of the host is never the last one of a schedule. -/
theorem Schedule.of_host (h : Schedule admitted k (u :: us)) (hu : u ≠ .seq) : Schedule admitted k us := by
  have hne : us ≠ [] := by
    rintro rfl
    exact hu (Option.some.inj h.last)
  have hcount : us.count .seq = k := by rw [← h.sequencer, List.count_cons_of_ne hu]
  exact hcount ▸ h.tail hne

/-- A step of the sequencer is the last turn of a schedule, or a shorter schedule follows it. -/
theorem Schedule.of_seq (h : Schedule admitted (k + 1) (.seq :: us)) : (us = [] ∧ k = 0) ∨ Schedule admitted k us := by
  have hcount : us.count .seq = k := by simpa using h.sequencer
  by_cases hne : us = []
  · subst hne
    exact .inl ⟨rfl, hcount.symm⟩
  · exact .inr (hcount ▸ h.tail hne)

/-- Every schedule ends where the sequencer alone ends, but for what the host has read (R201). -/
theorem SeqRun.steps_schedule {s t : State} {turns : List Turn} (h : SeqRun admitted k s t)
    (hs : Schedule admitted k turns) (rest : List Turn) (vs : List Seen) :
    ∃ vs', steps turns.length (heard (turns ++ rest) vs s) = .next (heard rest vs' t) := by
  induction turns generalizing k s vs with
  | nil => exact absurd hs.last (by simp)
  | cons u us ih =>
    have hstep : step (heard (u :: us ++ rest) vs s) = runTurn u (heard (us ++ rest) vs s) := step_cons rfl
    cases h with
    | refl => exact absurd hs.pos (Nat.lt_irrefl 0)
    | head quiet turn run =>
      by_cases hu : u = .seq
      · subst hu
        have hturn : step (heard (.seq :: us ++ rest) vs s) = .next (heard (us ++ rest) vs _) :=
          hstep.trans ((seqTurn_heard _ _ s).trans (by rw [turn]; rfl))
        rw [List.length_cons, steps_succ hturn]
        rcases hs.of_seq with ⟨rfl, rfl⟩ | hs
        · cases run
          exact ⟨vs, rfl⟩
        · exact ih run hs vs
      · obtain ⟨vs', hturn⟩ := quiet u (hs.admitted u List.mem_cons_self) hu (us ++ rest) vs
        rw [List.length_cons, steps_succ (hstep.trans hturn)]
        exact ih (.head quiet turn run) (hs.of_host hu) vs'

/-! ### The host's turns while a command runs -/

section
variable {s : State}

theorem exec_busy (hb : s.status.busy = true) (i : Instr) : exec i s = .next s := by
  cases i <;> exact if_pos hb

theorem dispatch_busy (hb : s.status.busy = true) (w : Word) : dispatch w s = .next s := by
  unfold dispatch
  split
  · exact exec_busy hb _
  · exact whenIdle_of_busy hb _

/-- Every register write is ignored while a command runs (44_system.md R191, R195). -/
theorem regWrite_busy (hb : s.status.busy = true) (n : RegNum) (v : Word) : regWrite n v s = .next s := by
  unfold regWrite
  split
  · exact dispatch_busy hb v
  · exact whenIdle_of_busy hb _
  · exact whenIdle_of_busy hb _
  · exact whenIdle_of_busy hb _
  · exact whenIdle_of_busy hb _
  · exact whenIdle_of_busy hb _
  · rfl

theorem unobtrusive_rd (n : RegNum) : Unobtrusive (.host (.rd n)) s := fun _ _ => ⟨_ :: _, rfl⟩

theorem unobtrusive_wr (hb : s.status.busy = true) (n : RegNum) (v : Word) : Unobtrusive (.host (.wr n v)) s :=
  fun as vs => ⟨vs, regWrite_busy (s := heard as vs s) hb n v⟩

theorem unobtrusive_msgRd (hp : s.status.phase = .enc) (a : Word) : Unobtrusive (.host (.msgRd a)) s :=
  fun as vs => ⟨_ :: vs, hostMsgRead_idle_or_enc (s := heard as vs s) (.inr hp) a⟩

theorem unobtrusive_pixRd {x y : Word} (hp : s.status.phase ≠ .enc) (hg : inGrid s x y = true) :
    Unobtrusive (.host (.pixRd x y)) s :=
  fun as vs => ⟨_ :: vs, hostPixRead_inGrid (s := heard as vs s) hp hg⟩

/-- What the host may do while ENCODE runs is unobtrusive. -/
theorem unobtrusive_of_encodeTurn (hp : s.status.phase = .enc) {u : Turn} (hu : encodeTurn u = true)
    (hne : u ≠ .seq) : Unobtrusive u s := by
  have hb : s.status.busy = true := (busy_eq_true_iff _).2 (by simp [hp])
  cases u with
  | seq => contradiction
  | wait => cases hu
  | host op =>
    cases op with
    | rd n => exact unobtrusive_rd n
    | wr n v => exact unobtrusive_wr hb n v
    | msgRd a => exact unobtrusive_msgRd hp a
    | pixRd | pixWr | msgWr | reset => cases hu

/-- What the host may do while DECODE runs is unobtrusive. -/
theorem unobtrusive_of_decodeTurn (hp : s.status.phase = .decHdr ∨ s.status.phase = .decBody) {u : Turn}
    (hu : decodeTurn s u = true) (hne : u ≠ .seq) : Unobtrusive u s := by
  have hb : s.status.busy = true := (busy_eq_true_iff _).2 (by rcases hp with hp | hp <;> simp [hp])
  have hnot : s.status.phase ≠ .enc := by rcases hp with hp | hp <;> simp [hp]
  cases u with
  | seq => contradiction
  | wait => cases hu
  | host op =>
    cases op with
    | rd n => exact unobtrusive_rd n
    | wr n v => exact unobtrusive_wr hb n v
    | pixRd x y => exact unobtrusive_pixRd hnot hu
    | pixWr | msgRd | msgWr | reset => cases hu

end

end Sys2Proof.Machine
end

section
/-! The encoder's steps (42_encoder.md R151 to R161): the start step, the stream bytes, one processing step and the
finish step. -/

namespace Sys2Proof.Machine

/-! ### The start step -/

theorem exec_encode_exceeds {s : State} (hb : s.status.busy = false) (hc : (tooLong s || tooBig s) = true) :
    exec .encode s = .next (fail .capacityExceeded s) := by
  rw [exec, execEncode, whenIdle_of_idle hb, if_pos hc]

/-- Settles O44: the two conditions of the start check, and TOTAL holds the sum without loss. -/
theorem encodeStart : Obligations.EncodeStart := by
  refine ⟨decode_encode .encode, fun s hb => ⟨fun h => ?_, fun hlen hcap => ?_⟩⟩
  · exact exec_encode_exceeds hb ((capacity_exceeded_iff s).2 h)
  · exact ⟨_, exec_encode_fits hb ((capacity_fits_iff s).2 ⟨hlen, hcap⟩), total33_toNat hlen, rfl⟩

/-- No step of a legal running ENCODE ends with an error: a processing step keeps STATUS, the finish step clears ERR. -/
theorem seqTurn_enc_err {s t : State} (hp : s.status.phase = .enc) (hl : s.status.Legal) (ht : seqTurn s = .next t) :
    t.status.err = .none := by
  have hb : s.status.busy = true := (busy_eq_true_iff _).2 (by simp [hp])
  obtain ⟨-, herr⟩ := hl.1 hb
  rw [seqTurn_enc hp] at ht
  unfold encStep at ht
  split at ht
  · rw [encProcess_next ht]
    exact herr
  · split at ht <;> cases ht
    rfl

/-- Settles O45: no command stores anything in its own step, and ENCODE's later steps end without error. -/
theorem noPartialWritesOnFailure : Obligations.NoPartialWritesOnFailure := by
  refine ⟨fun s t h => ?_, fun s t hp hl ht => seqTurn_enc_err hp hl ht⟩
  rw [exec_writes h]
  exact ⟨rfl, rfl, rfl⟩

/-- ENCODE enters its phase only if the message fits. -/
theorem encode_fits_of_enc {s t : State} (hb : s.status.busy = false) (h : exec .encode s = .next t)
    (hp : t.status.phase = .enc) : s.msgLen.toNat + 4 ≤ 2 ^ 32 - 1 ∧ s.msgLen.toNat + 4 ≤ cap s := by
  rw [← capacity_fits_iff]
  by_contra hc
  rw [Bool.not_eq_false] at hc
  rw [exec_encode_exceeds hb hc] at h
  cases h
  cases hp

/-- Settles O46: the three cases of the start check at its boundary. -/
theorem capacityBoundary : Obligations.CapacityBoundary := by
  refine ⟨fun s hb hw hh hm => ?_, fun s hb hlen hcap => ?_, fun s t hb h hp => ?_⟩
  · have hbig : cap s < s.msgLen.toNat + 4 := by
      rw [cap, hw, hh, hm]
      decide
    exact ⟨_, exec_encode_exceeds hb ((capacity_exceeded_iff s).2 (.inr hbig)), rfl⟩
  · exact ⟨_, exec_encode_fits hb ((capacity_fits_iff s).2 ⟨hlen, hcap.ge⟩), rfl⟩
  · have hcap : s.msgLen.toNat + 4 ≤ s.width.toNat * s.height.toNat := (encode_fits_of_enc hb h hp).2
    exact ⟨by omega, fun hfour => BitVec.eq_of_toNat_eq (show s.msgLen.toNat = 0 by omega)⟩

/-! ### The stream -/

theorem streamByte_of_lt_four {s : State} {i : Word} (h : i.toNat < 4) :
    streamByte s i = lengthByte s.total i.toNat := if_pos h

theorem streamByte_of_four_le {s : State} {i : Word} (h : 4 ≤ i.toNat) : streamByte s i = s.msg.read (i.toNat - 4) := by
  rw [streamByte, if_neg (Nat.not_lt.2 h), msgRead, msgIndex_toNat h]

theorem lengthByte_eq {i : Nat} (h : i < 4) (t : Word) : lengthByte t i = t.extractLsb' (24 - 8 * i) 8 := by
  rw [lengthByte, ushiftRight_setWidth, show 8 * (3 - i) = 24 - 8 * i by omega]

/-- The length bytes are the base-256 digits of the length. -/
theorem lengthByte_eq_ofNat (t : Word) (i : Nat) : lengthByte t i = BitVec.ofNat 8 (t.toNat / 256 ^ (3 - i)) := by
  rw [lengthByte, ushiftRight_setWidth, BitVec.extractLsb', Nat.shiftRight_eq_div_pow, Nat.pow_mul]

theorem streamByte_eq_encodedStream {s : State} (h : s.total.toNat = s.msgLen.toNat + 4) (i : Word) :
    streamByte s i = encodedStream s i.toNat := by
  unfold encodedStream
  split
  · next hi => rw [streamByte_of_lt_four hi, lengthByte_eq_ofNat, h]
  · next hi => exact streamByte_of_four_le (Nat.le_of_not_lt hi)

/-- Settles O47: a byte of TOTAL is a digit of its value. -/
theorem streamByteOfTotalThenMessage : Obligations.StreamByteOfTotalThenMessage := fun s i =>
  ⟨fun h => (streamByte_of_lt_four h).trans (lengthByte_eq h s.total), streamByte_of_four_le,
    fun h => streamByte_eq_encodedStream h i⟩

/-! ### The sequencer's steps -/

/-- In every step that accesses a pixel the invariant bounds IDX by CAP (R157, 43_decoder.md R181). -/
theorem idx_lt_cap {s : State} (h : Inv s)
    (henabled : s.status.phase = .enc ∧ s.idx.toNat < s.total.toNat ∨ s.status.phase = .decHdr ∧ s.idx.toNat < 4 ∨
      s.status.phase = .decBody ∧ s.idx.toNat < s.total.toNat) : s.idx.toNat < cap s := by
  rcases henabled with ⟨hp, hi⟩ | ⟨hp, hi⟩ | ⟨hp, hi⟩
  · obtain ⟨-, hcap, -⟩ := (phaseInv_enc_iff hp).1 h.phase
    exact hi.trans_le hcap
  · obtain ⟨hcap, -⟩ := (phaseInv_decHdr_iff hp).1 h.phase
    exact hi.trans_le hcap
  · obtain ⟨-, hcap, -⟩ := (phaseInv_decBody_iff hp).1 h.phase
    exact hi.trans_le hcap

/-- Settles O11: an index below CAP has its coordinates in the grid. -/
theorem everyBlockAccessIsInTheGrid : Obligations.EveryBlockAccessIsInTheGrid := by
  intro s h henabled
  have hg := coord_inGrid (idx_lt_cap h henabled)
  obtain ⟨hx, hy⟩ := inGrid_iff.1 hg
  exact ⟨Nat.one_le_of_lt hx, hx, hy, pixRead_of_inGrid hg⟩

theorem encProcessed_total (s : State) : (encProcessed s).total = s.total := rfl

theorem encProcessed_idx {s : State} (hi : s.idx.toNat < s.total.toNat) :
    (encProcessed s).idx.toNat = s.idx.toNat + 1 := succ_toNat hi s.total.isLt

/-- The accesses of a processing step, newest first (R152, 20_memory.md R75). -/
theorem encProcessed_bus (s : State) :
    (encProcessed s).bus =
      .pixWrite (coord s.idx s.width).1 (coord s.idx s.width).2
          (embed (pixelAt s (coord s.idx s.width).1 (coord s.idx s.width).2) (streamByte s s.idx)) ::
        .pixRead (coord s.idx s.width).1 (coord s.idx s.width).2
          (pixelAt s (coord s.idx s.width).1 (coord s.idx s.width).2) ::
        ((if s.idx.toNat < 4 then [] else [.msgRead (s.idx - 4) (msgRead s (s.idx - 4))]) ++ s.bus) := by
  unfold encProcessed streamAccess
  by_cases h4 : s.idx.toNat < 4
  · simp [h4]
  · simp [h4, msgIndex]

/-- Settles O48: the step is enabled and stores one pixel. -/
theorem encodeProcessingStep : Obligations.EncodeProcessingStep := by
  intro s h hp hi
  exact ⟨encProcessed s, (coord s.idx s.width).1, (coord s.idx s.width).2, seqTurn_enc_process h hp hi, rfl, rfl,
    encProcessed_idx hi, pixelAt_storePixel_same h _ _ _, fun _ _ hne => pixelAt_storePixel_other h hne _,
    encProcessed_bus s⟩

/-- Settles O49: the finish step is the enabled one. -/
theorem encodeFinishStep : Obligations.EncodeFinishStep := fun _ hp hi =>
  seqTurn_enc_finish hp (congrArg BitVec.toNat hi)

end Sys2Proof.Machine
end

section
/-! The whole ENCODE (42_encoder.md R154, R158): what its processing steps have done after each of them, and the command
in every interleaving with the host. -/

namespace Sys2Proof.Machine

/-- The stream index of the pixel (x, y), where it is in the grid (20_memory.md R63). -/
def streamIndex (s : State) (x y : Word) : Nat := y.toNat * s.width.toNat + x.toNat

/-- One processing step changes the pixel at stream index IDX (R152, 41_addrgen.md R142). -/
theorem pixelAt_encProcessed {s : State} (h : Inv s) (hp : s.status.phase = .enc) (hi : s.idx.toNat < s.total.toNat)
    (x y : Word) :
    pixelAt (encProcessed s) x y =
      if inGrid s x y = true ∧ streamIndex s x y = s.idx.toNat then
        embed (pixelAt s x y) (encodedStream s (streamIndex s x y))
      else pixelAt s x y := by
  obtain ⟨htotal, -, -⟩ := (phaseInv_enc_iff hp).1 h.phase
  have hat : (x = (coord s.idx s.width).1 ∧ y = (coord s.idx s.width).2) ↔
      inGrid s x y = true ∧ streamIndex s x y = s.idx.toNat := by
    constructor
    · rintro ⟨rfl, rfl⟩
      exact ⟨coord_inGrid (idx_lt_cap h (.inl ⟨hp, hi⟩)), coord_recompose _ _⟩
    · rintro ⟨hg, hidx⟩
      exact (coord_eq_iff hg).2 hidx.symm
  refine (pixelAt_storePixel h.pix.1 _ _ x y _).trans ?_
  simp only [hat]
  split
  · next hc =>
    obtain ⟨rfl, rfl⟩ := hat.2 hc
    rw [hc.2, streamByte_eq_encodedStream htotal]
  · rfl

/-- What `k` processing steps have made of `s`: IDX has risen by `k`, the pixels at the indices between carry their
bytes of the EncodedStream, and nothing else has changed but the record of accesses. -/
structure EncodedBy (k : Nat) (s t : State) : Prop where
  frame : t = { s with idx := t.idx, pix := t.pix, bus := t.bus }
  idx : t.idx.toNat = s.idx.toNat + k
  pixels : ∀ x y, pixelAt t x y =
    if inGrid s x y = true ∧ s.idx.toNat ≤ streamIndex s x y ∧ streamIndex s x y < s.idx.toNat + k then
      embed (pixelAt s x y) (encodedStream s (streamIndex s x y))
    else pixelAt s x y

theorem EncodedBy.refl (s : State) : EncodedBy 0 s s where
  frame := rfl
  idx := rfl
  pixels x y := (if_neg (by omega)).symm

theorem EncodedBy.head {k : Nat} {s t : State} (h : Inv s) (hp : s.status.phase = .enc)
    (hi : s.idx.toNat < s.total.toNat) (ht : EncodedBy k (encProcessed s) t) : EncodedBy (k + 1) s t where
  frame := ht.frame
  idx := by
    rw [ht.idx, encProcessed_idx hi]
    omega
  pixels x y := by
    have hgrid : inGrid (encProcessed s) x y = inGrid s x y := rfl
    have hindex : streamIndex (encProcessed s) x y = streamIndex s x y := rfl
    have hstream : ∀ i, encodedStream (encProcessed s) i = encodedStream s i := fun _ => rfl
    rw [ht.pixels, encProcessed_idx hi, hgrid, hindex, hstream, pixelAt_encProcessed h hp hi]
    by_cases hg : inGrid s x y = true
    · rcases Nat.lt_trichotomy (streamIndex s x y) s.idx.toNat with hlt | heq | hgt
      · rw [if_neg (by omega), if_neg (by omega), if_neg (by omega)]
      · rw [if_neg (by omega), if_pos ⟨hg, heq⟩, if_pos ⟨hg, by omega⟩]
      · by_cases hk : streamIndex s x y < s.idx.toNat + (k + 1)
        · rw [if_pos ⟨hg, by omega⟩, if_neg (by omega), if_pos ⟨hg, by omega⟩]
        · rw [if_neg (by omega), if_neg (by omega), if_neg (by omega)]
    · simp [hg]

/-- The processing steps up to any index not above TOTAL run, whatever the host does between them. -/
theorem seqRun_encode {k : Nat} {s : State} (h : Inv s) (hp : s.status.phase = .enc)
    (hk : s.idx.toNat + k ≤ s.total.toNat) : ∃ t, SeqRun encodeTurn k s t ∧ EncodedBy k s t := by
  induction k generalizing s with
  | zero => exact ⟨s, .refl s, .refl s⟩
  | succ k ih =>
    have hi : s.idx.toNat < s.total.toNat := by omega
    have hleft : (encProcessed s).idx.toNat + k ≤ (encProcessed s).total.toNat := by
      rw [encProcessed_idx hi, encProcessed_total]
      omega
    obtain ⟨t, hrun, ht⟩ := ih (encProcessed_inv h hp hi) hp hleft
    exact ⟨t, .head (fun _ => unobtrusive_of_encodeTurn hp) (seqTurn_enc_process h hp hi) hrun, ht.head h hp hi⟩

/-- The state in which a successful ENCODE leaves its start step (R151). -/
def encodeStarted (s : State) : State := start .enc (BitVec.ofNat 32 (total33 s)) s

theorem encodeStarted_total {s : State} (hlen : s.msgLen.toNat + 4 ≤ 2 ^ 32 - 1) :
    (encodeStarted s).total.toNat = s.msgLen.toNat + 4 := total33_toNat hlen

/-- The CMD write of ENCODE with a message that fits. -/
theorem step_encode_fits {s : State} {rest : List Turn} (hb : s.status.busy = false)
    (hlen : s.msgLen.toNat + 4 ≤ 2 ^ 32 - 1) (hcap : s.msgLen.toNat + 4 ≤ s.width.toNat * s.height.toNat)
    (ha : s.agenda = commandTurn .encode :: rest) : step s = .next (heard rest [] (encodeStarted s)) :=
  (step_commandTurn ha).trans
    (exec_encode_fits (s := setAgenda rest s) hb ((capacity_fits_iff (setAgenda rest s)).2 ⟨hlen, hcap⟩))

/-- The first `j` processing steps for a message that fits. -/
theorem seqRun_encodeStarted {s : State} (h : Inv s) (hlen : s.msgLen.toNat + 4 ≤ 2 ^ 32 - 1)
    (hcap : s.msgLen.toNat + 4 ≤ s.width.toNat * s.height.toNat) {j : Nat} (hj : j ≤ s.msgLen.toNat + 4) :
    ∃ t, SeqRun encodeTurn j (encodeStarted s) t ∧ EncodedBy j (encodeStarted s) t := by
  refine seqRun_encode (start_enc_inv h ((capacity_fits_iff s).2 ⟨hlen, hcap⟩)) rfl ?_
  rw [encodeStarted_total hlen]
  exact (Nat.zero_add j).trans_le hj

/-- Settles O51: nothing but processing steps comes before IDX reaches TOTAL. -/
theorem encodeProgress : Obligations.EncodeProgress := by
  intro s j h hb ha hlen hcap hj
  obtain ⟨t, hrun, ht⟩ := seqRun_encodeStarted (setAgenda_inv h []) hlen hcap hj
  refine ⟨t, ?_, by rw [ht.frame]; rfl, by rw [ht.idx]; exact Nat.zero_add j, ?_⟩
  · rw [Nat.add_comm, steps_succ (step_encode_fits hb hlen hcap ha)]
    exact hrun.steps_alone rfl
  · rw [ht.frame]
    exact encodeStarted_total hlen

/-- The whole of a successful ENCODE by the sequencer: TOTAL processing steps and the finish step (R154). -/
theorem seqRun_encode_whole {s : State} (h : Inv s) (hlen : s.msgLen.toNat + 4 ≤ 2 ^ 32 - 1)
    (hcap : s.msgLen.toNat + 4 ≤ s.width.toNat * s.height.toNat) :
    ∃ t, SeqRun encodeTurn (s.msgLen.toNat + 4 + 1) (encodeStarted s) (finish t) ∧
      EncodedBy (s.msgLen.toNat + 4) (encodeStarted s) t := by
  obtain ⟨t, hrun, ht⟩ := seqRun_encodeStarted h hlen hcap le_rfl
  have hp : t.status.phase = .enc := by rw [ht.frame]; rfl
  have hdone : t.idx.toNat = t.total.toNat := by
    rw [ht.idx, ht.frame]
    exact (Nat.zero_add _).trans (encodeStarted_total hlen).symm
  exact ⟨t, hrun.trans (.single (fun _ => unobtrusive_of_encodeTurn hp) (seqTurn_enc_finish hp hdone)), ht⟩

/-- Settles O50: the start step fails, or the sequencer's run of the whole command fits every schedule. -/
theorem encodeWholeCommand : Obligations.EncodeWholeCommand := by
  intro s rest h hb
  refine ⟨fun hexceeds ha => ?_, fun hlen hcap turns hs ha => ?_⟩
  · exact (step_commandTurn (i := .encode) ha).trans
      (exec_encode_exceeds (s := setAgenda rest s) hb ((capacity_exceeded_iff (setAgenda rest s)).2 hexceeds))
  · obtain ⟨t, hrun, ht⟩ := seqRun_encode_whole h hlen hcap
    obtain ⟨vs, hturns⟩ := hrun.steps_schedule hs rest []
    have hidx : t.idx.toNat = s.msgLen.toNat + 4 := ht.idx.trans (Nat.zero_add _)
    refine ⟨heard rest vs (finish t), ?_, by rw [ht.frame]; rfl, ?_, hidx, fun x y hg => ?_, fun x y hg => ?_⟩
    · rw [Nat.add_comm, steps_succ (step_encode_fits hb hlen hcap ha), hturns]
    · rw [ht.frame]
      exact encodeStarted_total hlen
    · refine (ht.pixels x y).trans (if_congr ?_ rfl rfl)
      simp [encodeStarted, streamIndex, hg]
    · refine (ht.pixels x y).trans (if_neg fun hin => ?_)
      exact Bool.false_ne_true (hg.symm.trans hin.1)

end Sys2Proof.Machine
end

section
/-! The whole of a successful DECODE (43_decoder.md R172 to R176): what its header and body steps have done after each
of them, and the command in every interleaving with the host. -/

namespace Sys2Proof.Machine

/-! ### The header -/

/-- The number that the first `i` of the bytes `f` write, most significant first (30_encoding.md R102). -/
def bigEndian (f : Nat → Byte) : Nat → Nat
  | 0 => 0
  | i + 1 => bigEndian f i * 256 + (f i).toNat

theorem bigEndian_four (s : State) : bigEndian (carried s) 4 = claimedLength s := by
  simp only [bigEndian, claimedLength]
  omega

theorem exec_decode_fits {s : State} (hb : s.status.busy = false) (hcap : 4 ≤ cap s) :
    exec .decode s = .next (start .decHdr 0#32 s) := by
  rw [exec, execDecode, whenIdle_of_idle hb, if_neg (Nat.not_lt.2 hcap)]

theorem seqTurn_decHdr_header {s : State} (h : Inv s) (hp : s.status.phase = .decHdr) (hi : s.idx.toNat < 4) :
    seqTurn s = .next (decHeadered s) := by
  rw [seqTurn_decHdr hp, decHdrStep, if_pos hi, decHeader_inGrid (idx_lt_cap h (.inr (.inl ⟨hp, hi⟩)))]

theorem seqTurn_decHdr_accept {s : State} (hp : s.status.phase = .decHdr) (hi : s.idx.toNat = 4)
    (hc : s.total.toNat ≤ cap s) : seqTurn s = .next (setStatus (Status.running .decBody) s) := by
  rw [seqTurn_decHdr hp, decHdrStep, if_neg (Nat.not_lt.2 hi.ge), if_pos hi, decHeaderFinish, if_neg (Nat.not_lt.2 hc)]

/-- One header step appends the byte carried at index IDX to TOTAL (R172). -/
theorem decHeadered_total {s : State} (h : Inv s) (hp : s.status.phase = .decHdr) (hi : s.idx.toNat < 4) :
    (decHeadered s).total.toNat = s.total.toNat * 256 + (carried s s.idx.toNat).toNat := by
  obtain ⟨-, -, htotal⟩ := (phaseInv_decHdr_iff hp).1 h.phase
  have hsmall : s.total.toNat < 2 ^ 24 := htotal.trans_le (Nat.pow_le_pow_right (j := 3) (by decide) (by omega))
  rw [carried, ← pixelAt_coord]
  exact shiftIn_toNat hsmall _

/-- The header is read: TOTAL is the claimed length, and nothing else has changed but IDX and the record of accesses. -/
structure HeaderRead (s t : State) : Prop where
  frame : t = { s with total := t.total, idx := t.idx, bus := t.bus }
  idx : t.idx.toNat = 4
  total : t.total.toNat = claimedLength s

/-- The header steps from any of the four indices run, whatever the host does between them. -/
theorem seqRun_header {k : Nat} {s : State} (h : Inv s) (hp : s.status.phase = .decHdr) (hk : s.idx.toNat + k = 4)
    (htotal : s.total.toNat = bigEndian (carried s) s.idx.toNat) :
    ∃ t, SeqRun (decodeTurn s) k s t ∧ HeaderRead s t := by
  induction k generalizing s with
  | zero =>
    have hi : s.idx.toNat = 4 := hk
    exact ⟨s, .refl s, rfl, hi, by rw [htotal, hi, bigEndian_four]⟩
  | succ k ih =>
    have hi : s.idx.toNat < 4 := by omega
    have hidx : (decHeadered s).idx.toNat = s.idx.toNat + 1 := succ_toNat hi (by decide)
    have hnext : (decHeadered s).total.toNat = bigEndian (carried (decHeadered s)) (decHeadered s).idx.toNat := by
      rw [decHeadered_total h hp hi, htotal, hidx]
      rfl
    obtain ⟨t, hrun, ht⟩ := ih (decHeadered_inv h hp hi) hp (by omega) hnext
    exact ⟨t, .head (fun _ => unobtrusive_of_decodeTurn (.inl hp)) (seqTurn_decHdr_header h hp hi) hrun,
      ht.frame, ht.idx, ht.total⟩

/-! ### The body -/

theorem seqTurn_decBody_body {s : State} (h : Inv s) (hp : s.status.phase = .decBody)
    (hi : s.idx.toNat < s.total.toNat) : seqTurn s = .next (decBodied s) := by
  obtain ⟨-, -, hlow, -⟩ := (phaseInv_decBody_iff hp).1 h.phase
  rw [seqTurn_decBody hp, decBodyStep, if_neg (Nat.not_le.2 hi), if_pos hlow,
    decBody_inGrid (idx_lt_cap h (.inr (.inr ⟨hp, hi⟩)))]

theorem seqTurn_decBody_finish {s : State} (hp : s.status.phase = .decBody) (hi : s.total.toNat ≤ s.idx.toNat) :
    seqTurn s = .next (finish (setMsgLen (decodedLength s.total) s)) := by
  rw [seqTurn_decBody hp, decBodyStep, if_pos hi, decBodyFinish]

theorem decBodied_total (s : State) : (decBodied s).total = s.total := rfl

theorem decBodied_idx {s : State} (hi : s.idx.toNat < s.total.toNat) :
    (decBodied s).idx.toNat = s.idx.toNat + 1 := succ_toNat hi s.total.isLt

/-- One body step stores the byte carried at index IDX (R174). -/
theorem decBodied_read {s : State} (h : Inv s) (hp : s.status.phase = .decBody) (j : Nat) :
    (decBodied s).msg.read j = if j + 4 = s.idx.toNat then carried s (j + 4) else s.msg.read j := by
  obtain ⟨-, -, hlow, -⟩ := (phaseInv_decBody_iff hp).1 h.phase
  refine (Memory.read_write s.msg h.msg.1 _ j _).trans ?_
  rw [msgIndex_toNat hlow, pixelAt_coord]
  by_cases hj : j + 4 = s.idx.toNat
  · rw [if_pos hj, if_pos (by omega), hj, carried]
  · rw [if_neg hj, if_neg (by omega)]

/-- The body is read from index IDX of `s` on: the bytes carried below TOTAL are in MSG, and nothing else has changed
but IDX and the record of accesses. -/
structure BodyRead (s t : State) : Prop where
  frame : t = { s with idx := t.idx, msg := t.msg, bus := t.bus }
  idx : t.idx.toNat = max s.total.toNat s.idx.toNat
  bytes : ∀ j, t.msg.read j =
    if s.idx.toNat ≤ j + 4 ∧ j + 4 < s.total.toNat then carried s (j + 4) else s.msg.read j

theorem BodyRead.head {s t : State} (h : Inv s) (hp : s.status.phase = .decBody) (hi : s.idx.toNat < s.total.toNat)
    (ht : BodyRead (decBodied s) t) : BodyRead s t := by
  refine ⟨ht.frame, ?_, fun j => ?_⟩
  · rw [ht.idx, decBodied_idx hi, decBodied_total]
    omega
  · have hcarried : carried (decBodied s) (j + 4) = carried s (j + 4) := rfl
    rw [ht.bytes, decBodied_idx hi, decBodied_total, hcarried, decBodied_read h hp]
    rcases Nat.lt_trichotomy (j + 4) s.idx.toNat with hlt | heq | hgt
    · rw [if_neg (by omega), if_neg (by omega), if_neg (by omega)]
    · rw [if_neg (by omega), if_pos heq, if_pos (by omega)]
    · rw [if_neg (by omega : ¬j + 4 = s.idx.toNat)]
      exact if_congr (by omega) rfl rfl

/-- The body steps from any index on run, whatever the host does between them. -/
theorem seqRun_body {k : Nat} {s : State} (h : Inv s) (hp : s.status.phase = .decBody)
    (hk : k = s.total.toNat - s.idx.toNat) : ∃ t, SeqRun (decodeTurn s) k s t ∧ BodyRead s t := by
  induction k generalizing s with
  | zero => exact ⟨s, .refl s, rfl, by omega, fun j => (if_neg (by omega)).symm⟩
  | succ k ih =>
    have hi : s.idx.toNat < s.total.toNat := by omega
    have hleft : k = (decBodied s).total.toNat - (decBodied s).idx.toNat := by
      rw [decBodied_idx hi, decBodied_total]
      omega
    obtain ⟨t, hrun, ht⟩ := ih (decBodied_inv h hp hi) hp hleft
    exact ⟨t, .head (fun _ => unobtrusive_of_decodeTurn (.inr hp)) (seqTurn_decBody_body h hp hi) hrun, ht.head h hp hi⟩

/-! ### The command -/

theorem decodedLength_toNat (t : Word) : (decodedLength t).toNat = t.toNat - 4 := by
  unfold decodedLength
  split
  · next h => exact msgIndex_toNat h
  · next h => exact (Nat.sub_eq_zero_of_le (Nat.le_of_not_le h)).symm

/-- What a successful DECODE of `s` leaves (R176), but for the host's part. -/
structure Decoded (s t : State) : Prop where
  frame : t = { s with total := t.total, idx := t.idx, msgLen := t.msgLen, msg := t.msg, bus := t.bus,
                       status := Status.ended .none }
  total : t.total.toNat = claimedLength s
  idx : t.idx.toNat = max (claimedLength s) 4
  msgLen : t.msgLen.toNat = claimedLength s - 4
  bytes : ∀ j, t.msg.read j = if j + 4 < claimedLength s then carried s (j + 4) else s.msg.read j

/-- The header and the step that accepts the claimed length. -/
theorem seqRun_decode_header {s : State} (h : Inv s) (hcap : 4 ≤ cap s) (hclaim : claimedLength s ≤ cap s) :
    ∃ t, SeqRun (decodeTurn s) (4 + 1) (start .decHdr 0#32 s) (setStatus (Status.running .decBody) t) ∧
      HeaderRead (start .decHdr 0#32 s) t := by
  obtain ⟨t, hrun, ht⟩ := seqRun_header (k := 4) (start_decHdr_inv h hcap) rfl rfl rfl
  have hp : t.status.phase = .decHdr := by rw [ht.frame]; rfl
  have hadmitted : decodeTurn t = decodeTurn s := by rw [ht.frame]; rfl
  have hfits : t.total.toNat ≤ cap t := by
    rw [ht.total, ht.frame]
    exact hclaim
  have haccept := seqTurn_decHdr_accept hp ht.idx hfits
  exact ⟨t, hrun.trans (.single (fun _ hu => unobtrusive_of_decodeTurn (.inl hp) (hadmitted ▸ hu)) haccept), ht⟩

/-- The body and the finish step. -/
theorem seqRun_decode_body {s : State} (h : Inv s) (hp : s.status.phase = .decBody) (hi : s.idx.toNat = 4) :
    ∃ t, SeqRun (decodeTurn s) (s.total.toNat - 4 + 1) s (finish (setMsgLen (decodedLength s.total) t)) ∧
      BodyRead s t := by
  obtain ⟨t, hrun, ht⟩ := seqRun_body h hp rfl
  have hpt : t.status.phase = .decBody := by rw [ht.frame]; exact hp
  have hadmitted : decodeTurn t = decodeTurn s := by rw [ht.frame]; rfl
  have htotal : t.total = s.total := by rw [ht.frame]
  have hdone : t.total.toNat ≤ t.idx.toNat := by
    rw [ht.idx, htotal]
    exact Nat.le_max_left _ _
  have hfinish := seqTurn_decBody_finish hpt hdone
  rw [htotal] at hfinish
  rw [hi] at hrun
  exact ⟨t, hrun.trans (.single (fun _ hu => unobtrusive_of_decodeTurn (.inr hpt) (hadmitted ▸ hu)) hfinish), ht⟩

/-- The whole of a successful DECODE by the sequencer: the header, the accepted claim, the body and the finish step. -/
theorem seqRun_decode_whole {s : State} (h : Inv s) (hcap : 4 ≤ cap s) (hclaim : claimedLength s ≤ cap s) :
    ∃ t, SeqRun (decodeTurn s) (4 + 1 + (claimedLength s - 4) + 1) (start .decHdr 0#32 s) t ∧ Decoded s t := by
  obtain ⟨t, hheader, ht⟩ := seqRun_decode_header h hcap hclaim
  have hinv := hheader.inv (start_decHdr_inv h hcap)
  obtain ⟨u, hbody, hu⟩ := seqRun_decode_body hinv rfl ht.idx
  have hadmitted : decodeTurn (setStatus (Status.running .decBody) t) = decodeTurn s := by rw [ht.frame]; rfl
  have hcarried (i : Nat) : carried (setStatus (Status.running .decBody) t) i = carried s i := by rw [ht.frame]; rfl
  have htotal : t.total.toNat = claimedLength s := ht.total
  rw [hadmitted, setStatus_total, htotal] at hbody
  rw [Nat.add_assoc (4 + 1)]
  refine ⟨_, hheader.trans hbody, ?_, ?_, ?_, ?_, fun j => ?_⟩
  · rw [hu.frame, ht.frame]
    rfl
  · rw [hu.frame]
    exact htotal
  · refine hu.idx.trans ?_
    rw [setStatus_total, setStatus_idx, htotal, ht.idx]
  · rw [← htotal]
    exact decodedLength_toNat t.total
  · refine (hu.bytes j).trans ?_
    rw [setStatus_total, setStatus_idx, htotal, ht.idx, hcarried, ht.frame]
    exact if_congr (by omega) rfl rfl

/-- A successful DECODE in every interleaving, from the CMD write on (R176). -/
theorem steps_decode_succeeds {s : State} {turns rest : List Turn} (h : Inv s) (hb : s.status.busy = false)
    (hcap : 4 ≤ cap s) (hclaim : claimedLength s ≤ cap s)
    (hs : Schedule (decodeTurn s) (4 + 1 + (claimedLength s - 4) + 1) turns)
    (ha : s.agenda = commandTurn .decode :: (turns ++ rest)) :
    ∃ vs t, steps (1 + turns.length) s = .next (heard rest vs t) ∧ Decoded s t := by
  obtain ⟨t, hrun, ht⟩ := seqRun_decode_whole h hcap hclaim
  obtain ⟨vs, hturns⟩ := hrun.steps_schedule hs rest []
  have hstart : step s = .next (heard (turns ++ rest) [] (start .decHdr 0#32 s)) :=
    (step_commandTurn ha).trans (exec_decode_fits (s := setAgenda (turns ++ rest) s) hb hcap)
  exact ⟨vs, t, by rw [Nat.add_comm, steps_succ hstart, hturns], ht⟩

end Sys2Proof.Machine
end

section
/-! ENCODE, then DECODE (42_encoder.md R160): the grid that ENCODE leaves carries the EncodedStream, and DECODE reads it
back. -/

namespace Sys2Proof.Machine

/-- The grid of `u` carries the EncodedStream of the message of `s`. -/
def CarriesStream (s u : State) : Prop := ∀ i, i < s.msgLen.toNat + 4 → carried u i = encodedStream s i

/-- A grid whose first pixels were embedded with the EncodedStream carries it, whatever they were
(40_bitpack.md R126). -/
theorem carriesStream_of_embedded {s u : State} (hlen : s.msgLen.toNat + 4 ≤ 2 ^ 32 - 1)
    (hcap : s.msgLen.toNat + 4 ≤ cap u)
    (hpix : ∀ x y, inGrid u x y = true → streamIndex u x y < s.msgLen.toNat + 4 →
      ∃ p, pixelAt u x y = embed p (encodedStream s (streamIndex u x y))) : CarriesStream s u := by
  intro i hi
  obtain ⟨n, rfl⟩ : ∃ n : Word, n.toNat = i := ⟨BitVec.ofNat 32 i, Nat.mod_eq_of_lt (by omega)⟩
  have hindex : streamIndex u (coord n u.width).1 (coord n u.width).2 = n.toNat := coord_recompose n u.width
  obtain ⟨p, hp⟩ := hpix _ _ (coord_inGrid (hi.trans_le hcap)) (hindex.trans_lt hi)
  rw [carried, ← pixelAt_coord, hp, extract_embed, hindex]

/-- The first four bytes of the EncodedStream are the base-256 digits of its length (30_encoding.md R101). -/
theorem encodedStream_toNat (s : State) {i : Nat} (hi : i < 4) :
    (encodedStream s i).toNat = (s.msgLen.toNat + 4) / 256 ^ (3 - i) % 256 := by
  rw [encodedStream, if_pos hi, BitVec.toNat_ofNat]

/-- The first four pixels claim the length of the EncodedStream. -/
theorem CarriesStream.claimedLength_eq {s u : State} (h : CarriesStream s u) (hlen : s.msgLen.toNat + 4 ≤ 2 ^ 32 - 1) :
    claimedLength u = s.msgLen.toNat + 4 := by
  rw [claimedLength, h 0 (by omega), h 1 (by omega), h 2 (by omega), h 3 (by omega), encodedStream_toNat s (by decide),
    encodedStream_toNat s (by decide), encodedStream_toNat s (by decide), encodedStream_toNat s (by decide)]
  omega

/-- The bytes after the first four are the message. -/
theorem CarriesStream.message {s u : State} (h : CarriesStream s u) {j : Nat} (hj : j < s.msgLen.toNat) :
    carried u (j + 4) = s.msg.read j := by
  rw [h (j + 4) (by omega), encodedStream, if_neg (by omega), Nat.add_sub_cancel]

/-- DECODE of a grid that carries a message ends without error and with that message (R160). -/
theorem steps_decode_recovers {s u : State} {turns rest : List Turn} (h : Inv u) (hb : u.status.busy = false)
    (hlen : s.msgLen.toNat + 4 ≤ 2 ^ 32 - 1) (hcap : s.msgLen.toNat + 4 ≤ cap u) (hu : CarriesStream s u)
    (hs : Schedule (decodeTurn u) (4 + 1 + s.msgLen.toNat + 1) turns)
    (ha : u.agenda = commandTurn .decode :: (turns ++ rest)) :
    ∃ v, steps (1 + turns.length) u = .next v ∧ v.status = Status.ended .none ∧ v.msgLen = s.msgLen ∧
      ∀ j : Nat, j < s.msgLen.toNat → v.msg.read j = s.msg.read j := by
  have hclaim := hu.claimedLength_eq hlen
  have hbody : claimedLength u - 4 = s.msgLen.toNat := by omega
  obtain ⟨vs, v, hv, hd⟩ := steps_decode_succeeds h hb (by omega) (by omega) (hbody ▸ hs) ha
  refine ⟨heard rest vs v, hv, by rw [hd.frame]; rfl, BitVec.eq_of_toNat_eq (hd.msgLen.trans hbody), fun j hj => ?_⟩
  exact ((hd.bytes j).trans (if_pos (by omega))).trans (hu.message hj)

/-- Settles O60: ENCODE leaves a grid that carries the message, and so does every grid with the same pixels. -/
theorem decodeRecoversTheMessage : Obligations.DecodeRecoversTheMessage := by
  intro s turns rest h hb hlen hcap hs ha
  obtain ⟨-, hfits⟩ := encodeWholeCommand s rest h hb
  obtain ⟨t, ht, hframe, -, -, hpix, -⟩ := hfits hlen hcap turns hs ha
  refine ⟨t, ht, by rw [hframe]; exact ended_none_word, fun u turns' rest' hu hbu hw hh hsame hs' ha' => ?_⟩
  have hcapu : s.msgLen.toNat + 4 ≤ cap u := by rwa [cap, hw, hh]
  have hcarries : CarriesStream s u := by
    refine carriesStream_of_embedded hlen hcapu fun x y hg hi => ⟨pixelAt s x y, ?_⟩
    have hgs : inGrid s x y = true := by rwa [inGrid, hw, hh] at hg
    rw [streamIndex, hw] at hi ⊢
    rw [hsame x y hg, hpix x y hgs, if_pos hi]
  obtain ⟨v, hv, hstatus, hmsgLen, hbytes⟩ := steps_decode_recovers hu hbu hlen hcapu hcarries hs' ha'
  exact ⟨v, hv, by rw [hstatus, ended_none_word], hmsgLen, hbytes⟩

end Sys2Proof.Machine
end

section
/-! The decoder's steps (43_decoder.md R171 to R175, R179): the start step, one step of each kind of the sequencer, and
what none of them writes. -/

namespace Sys2Proof.Machine

/-! ### The start step -/

theorem exec_decode_small {s : State} (hb : s.status.busy = false) (hcap : cap s < 4) :
    exec .decode s = .next (fail .outOfBounds s) := by
  rw [exec, execDecode, whenIdle_of_idle hb, if_pos hcap]

/-- Settles O53: the two outcomes of the check against four pixels. -/
theorem decodeStart : Obligations.DecodeStart :=
  ⟨decode_encode .decode, fun _ hb => ⟨exec_decode_small hb, exec_decode_fits hb⟩⟩

/-! ### The header -/

/-- Settles O54: the step is enabled and appends the byte of the pixel it reads to TOTAL. -/
theorem decodeHeaderStep : Obligations.DecodeHeaderStep := by
  intro s h hp hi
  refine ⟨decHeadered s, (coord s.idx s.width).1, (coord s.idx s.width).2, seqTurn_decHdr_header h hp hi, rfl, rfl, ?_,
    succ_toNat hi (by decide)⟩
  rw [decHeadered_total h hp hi, pixelAt_coord, carried]

theorem seqTurn_decHdr_reject {s : State} (hp : s.status.phase = .decHdr) (hi : s.idx.toNat = 4)
    (hc : cap s < s.total.toNat) : seqTurn s = .next (fail .outOfBounds s) := by
  rw [seqTurn_decHdr hp, decHdrStep, if_neg (Nat.not_lt.2 hi.ge), if_pos hi, decHeaderFinish, if_pos hc]

/-- Settles O55: the two outcomes of the check of the claimed length. -/
theorem decodeHeaderFinishStep : Obligations.DecodeHeaderFinishStep := fun _ hp hi =>
  ⟨seqTurn_decHdr_reject hp hi, seqTurn_decHdr_accept hp hi⟩

/-! ### The body -/

/-- Settles O56: the step is enabled and stores at one index of MSG. -/
theorem decodeBodyStep : Obligations.DecodeBodyStep := by
  intro s h hp hi
  obtain ⟨-, -, hlow, -⟩ := (phaseInv_decBody_iff hp).1 h.phase
  exact ⟨decBodied s, (coord s.idx s.width).1, (coord s.idx s.width).2, msgIndex s.idx, seqTurn_decBody_body h hp hi, rfl,
    msgIndex_toNat hlow, rfl, decBodied_idx hi, msgRead_msgWrite_same h _ _, fun _ hne => msgRead_msgWrite_other h hne _⟩

/-- Settles O57: the finish step is the enabled one, and the length it reports is TOTAL - 4, cut off at 0. -/
theorem decodeBodyFinishStep : Obligations.DecodeBodyFinishStep := by
  intro s hp hi
  refine ⟨finish (setMsgLen (decodedLength s.total) s), seqTurn_decBody_finish hp hi, rfl, ?_⟩
  show (decodedLength s.total).toNat = _
  rw [decodedLength_toNat]
  split <;> omega

/-! ### What no step writes -/

/-- All that a step of the sequencer may write while DECODE runs (R179). -/
theorem seqTurn_decode_writes {s t : State} (hp : s.status.phase = .decHdr ∨ s.status.phase = .decBody)
    (h : seqTurn s = .next t) :
    t = { s with msgLen := t.msgLen, total := t.total, idx := t.idx, status := t.status, msg := t.msg, bus := t.bus } := by
  rcases seqTurn_cases h with ⟨-, rfl⟩ | ⟨henc, -, -⟩ | ⟨-, -, rfl⟩ | ⟨-, -, rfl⟩ | ⟨-, -, -, rfl⟩ | ⟨-, -, -, rfl⟩ |
    ⟨-, -, -, rfl⟩ | ⟨-, -, rfl⟩
  case inr.inl => rcases hp with hp | hp <;> cases henc.symm.trans hp
  all_goals rfl

/-- Settles O58: the start step writes what every command may and DECODE owns, the sequencer MSG and DECODE's registers. -/
theorem decodeNeverWritesPix : Obligations.DecodeNeverWritesPix := by
  rintro s t (h | ⟨hp, h⟩)
  · obtain ⟨-, hres, hpos⟩ := exec_own_registers h
    obtain ⟨hx, hy⟩ := hpos (by decide)
    have hres := hres (by decide) (by decide) (by decide) (by decide)
    rw [exec_writes h] at hres hx hy ⊢
    exact ⟨rfl, rfl, rfl, rfl, rfl, hres, hx, hy⟩
  · rw [seqTurn_decode_writes hp h]
    exact ⟨rfl, rfl, rfl, rfl, rfl, rfl, rfl, rfl⟩

end Sys2Proof.Machine
end

section
/-! The whole DECODE (43_decoder.md R176): the rejected claim, and the three endings in every interleaving with the
host. -/

namespace Sys2Proof.Machine

/-- The header and the step that rejects the claimed length. -/
theorem seqRun_decode_rejected {s : State} (h : Inv s) (hcap : 4 ≤ cap s) (hclaim : cap s < claimedLength s) :
    ∃ t, SeqRun (decodeTurn s) (4 + 1) (start .decHdr 0#32 s) (fail .outOfBounds t) ∧
      HeaderRead (start .decHdr 0#32 s) t := by
  obtain ⟨t, hrun, ht⟩ := seqRun_header (k := 4) (start_decHdr_inv h hcap) rfl rfl rfl
  have hp : t.status.phase = .decHdr := by rw [ht.frame]; rfl
  have hadmitted : decodeTurn t = decodeTurn s := by rw [ht.frame]; rfl
  have hexceeds : cap t < t.total.toNat := by
    rw [ht.total, ht.frame]
    exact hclaim
  have hreject := seqTurn_decHdr_reject hp ht.idx hexceeds
  exact ⟨t, hrun.trans (.single (fun _ hu => unobtrusive_of_decodeTurn (.inl hp) (hadmitted ▸ hu)) hreject), ht⟩

/-- A run of the sequencer from DECODE's start on, in every interleaving and from the CMD write on. -/
theorem SeqRun.steps_decode {k : Nat} {s t : State} {turns rest : List Turn}
    (h : SeqRun (decodeTurn s) k (start .decHdr 0#32 s) t) (hb : s.status.busy = false) (hcap : 4 ≤ cap s)
    (hs : Schedule (decodeTurn s) k turns) (ha : s.agenda = commandTurn .decode :: (turns ++ rest)) :
    ∃ vs, steps (1 + turns.length) s = .next (heard rest vs t) := by
  obtain ⟨vs, hturns⟩ := h.steps_schedule hs rest []
  have hstart : step s = .next (heard (turns ++ rest) [] (start .decHdr 0#32 s)) :=
    (step_commandTurn ha).trans (exec_decode_fits (s := setAgenda (turns ++ rest) s) hb hcap)
  exact ⟨vs, by rw [Nat.add_comm, steps_succ hstart, hturns]⟩

/-- Settles O59: the start step fails, or the sequencer's run of the header or of the whole command fits every
schedule. -/
theorem decodeWholeCommand : Obligations.DecodeWholeCommand := by
  intro s rest h hb
  refine ⟨fun hcap ha => ?_, fun hcap hclaim turns hs ha => ?_, fun hcap hclaim turns hs ha => ?_⟩
  · exact (step_commandTurn (i := .decode) ha).trans (exec_decode_small (s := setAgenda rest s) hb hcap)
  · obtain ⟨t, hrun, ht⟩ := seqRun_decode_rejected h hcap hclaim
    obtain ⟨vs, hsteps⟩ := hrun.steps_decode hb hcap hs ha
    have hidx : t.idx = 4 := BitVec.eq_of_toNat_eq ht.idx
    refine ⟨heard rest vs (fail .outOfBounds t), hsteps, ?_, ht.total⟩
    rw [ht.frame, hidx]
    rfl
  · obtain ⟨vs, t, hsteps, ht⟩ := steps_decode_succeeds h hb hcap hclaim hs ha
    refine ⟨heard rest vs t, hsteps, by rw [ht.frame]; rfl, ht.total, ht.idx, ht.msgLen, fun j hj => ?_, fun j hj => ?_⟩
    · exact (ht.bytes j).trans (if_pos (by omega))
    · exact (ht.bytes j).trans (if_neg (by omega))

end Sys2Proof.Machine
end

section
/-! The two agents and command dispatch (44_system.md R190 to R195, R200): which agent a step belongs to, and what a
write to CMD does, its word a command or not, the block idle or busy. -/

namespace Sys2Proof.Machine

/-! ### The agent of a step, and dispatch -/

theorem dispatch_of_decode {w : Word} {i : Instr} (h : decode w = .ok i) (s : State) : dispatch w s = exec i s := by
  simp only [dispatch, h]

theorem dispatch_illegal {w : Word} {e : Illegal} (h : decode w = .error e) (s : State) :
    dispatch w s = illegalCommand s := by
  simp only [dispatch, h]

/-- All a step can do, by the agent it belongs to; WAIT is the host's poll. -/
theorem step_agent_cases {s t : State} (h : step s = .next t) :
    (∃ rest, seqTurn (setAgenda rest s) = .next t) ∨
      (∃ op rest, s.agenda = .host op :: rest ∧ hostStep op (setAgenda rest s) = .next t) ∨
      ∃ rest, s.agenda = .wait :: rest ∧ waitPoll (setAgenda rest s) = .next t := by
  rcases step_cases h with ⟨-, hturn⟩ | ⟨u, rest, ha, hturn⟩
  · exact .inl ⟨s.agenda, hturn⟩
  · cases u with
    | seq => exact .inl ⟨rest, hturn⟩
    | host op => exact .inr (.inl ⟨op, rest, ha, hturn⟩)
    | wait => exact .inr (.inr ⟨rest, ha, hturn⟩)

/-- A host write to CMD dispatches its word (R193). -/
theorem step_cmdWrite {s : State} {w : Word} {rest : List Turn} (h : s.agenda = .host (.wr 0#4 w) :: rest) :
    step s = dispatch w (setAgenda rest s) := step_cons h

theorem decode_of_decodeTableWord {nbits w : Nat} {i : Instr} (h : decodeTableWord nbits w = some i) :
    decode (BitVec.ofNat 32 (w % 2 ^ nbits)) = .ok i := by
  unfold decodeTableWord at h
  split at h
  · split at h
    · next hd => exact hd.trans (congrArg Except.ok (Option.some.inj h))
    · cases h
  · cases h

/-- Settles O4: a CMD write dispatches its word, and the word that `withFetchWord` places is the decoded one. -/
theorem stepRunsTheDecodedCommand : Obligations.StepRunsTheDecodedCommand :=
  ⟨fun s rest _ _ ha hd _ => (step_cmdWrite ha).trans (dispatch_of_decode hd (setAgenda rest s)),
    fun s _ _ hd => (step_cmdWrite (s := s.withFetchWord 32 _) rfl).trans
      (dispatch_of_decode (decode_of_decodeTableWord hd) s)⟩

/-- Settles O5, by the first turn of the agenda. -/
theorem agendaDecidesTheAgent : Obligations.AgendaDecidesTheAgent := fun _ =>
  ⟨step_nil, fun _ ha => step_cons ha, fun _ _ ha => step_cons ha⟩

/-! ### A command word while idle and while busy -/

theorem exec_nop_idle {s : State} (h : s.status.busy = false) : exec .nop s = .next (finish s) := by
  simp only [exec, execNop, whenIdle_of_idle h]

/-- Settles O15: while idle NOP only ends the command. -/
theorem nopWritesStatusOnly : Obligations.NopWritesStatusOnly :=
  ⟨decode_encode .nop, fun s hb => ⟨finish s, exec_nop_idle hb, rfl, ended_none_word⟩⟩

theorem illegalCommand_idle {s : State} (h : s.status.busy = false) :
    illegalCommand s = .next (fail .illegalCommand s) :=
  whenIdle_of_idle h _

/-- Settles O21: while idle an illegal word is error entry, which writes STATUS alone. -/
theorem illegalWordWritesStatusOnly : Obligations.IllegalWordWritesStatusOnly := by
  intro s rest w e hb ha hd
  have hstep : step s = .next (fail .illegalCommand (setAgenda rest s)) := by
    rw [step_cmdWrite ha, dispatch_illegal hd, illegalCommand_idle (s := setAgenda rest s) hb]
  have hword : (Status.ended .illegalCommand).word = 0x00000032#32 := by decide
  exact ⟨_, hstep, rfl, hword, rfl⟩

/-- Settles O22: while busy neither a command nor the dispatch of a word does anything. -/
theorem commandWhileBusyIsIgnored : Obligations.CommandWhileBusyIsIgnored := fun s hb =>
  ⟨exec_busy hb, fun rest w ha => (step_cmdWrite ha).trans (dispatch_busy (s := setAgenda rest s) hb w)⟩

/-- Every command is the busy gate around a meaning that does not read STATUS, which it overwrites (R193, R195). -/
theorem exec_eq_whenIdle (i : Instr) :
    ∃ k, (∀ s, exec i s = whenIdle s k) ∧ ∀ s t t', k (setStatus t s) = k (setStatus t' s) := by
  cases i <;> exact ⟨_, fun _ => by simp only [exec]; rfl, fun _ _ _ => rfl⟩

/-- Settles O24: the gate lets every idle state through, and behind it STATUS is not read. -/
theorem commandsIgnoreTheLastStatus : Obligations.CommandsIgnoreTheLastStatus := by
  intro i s d d' e e'
  obtain ⟨k, hexec, hk⟩ := exec_eq_whenIdle i
  rw [hexec, hexec, whenIdle_of_idle rfl, whenIdle_of_idle rfl]
  exact hk s ⟨.idle, d, e⟩ ⟨.idle, d', e'⟩

end Sys2Proof.Machine
end

section
/-! The register port (44_system.md R191, R192), number by number. -/

namespace Sys2Proof.Machine

theorem regRead_reserved {n : RegNum} (h : 12 ≤ n.toNat) (s : State) : regRead n s = 0#32 := by
  unfold regRead
  split
  case h_12 => rfl
  all_goals omega

/-- Settles O31: a read is recorded, and each number has its register; the reserved ones have none. -/
theorem registerReadReturnsTheValue : Obligations.RegisterReadReturnsTheValue := fun s =>
  ⟨fun _ => rfl, rfl, rfl, rfl, rfl, rfl, rfl, rfl, rfl, rfl, rfl, rfl, fun _ h => regRead_reserved h s,
    regRead_status s⟩

/-- A write to a read-only or a reserved number is ignored, idle or busy (R191, 10_state.md R43). -/
theorem regWrite_ignored {n : RegNum} (h : n.toNat ∈ [1, 5, 6, 9, 10, 11, 12, 13, 14, 15]) (v : Word) (s : State) :
    regWrite n v s = .next s := by
  unfold regWrite
  split
  case h_7 => rfl
  all_goals
    next hn =>
    rw [hn] at h
    exact absurd h (by decide)

/-- Settles O32: while idle a write to a register of the host's is that register's update, a write to CMD dispatches;
while busy, and to the other numbers always, nothing happens. -/
theorem registerWriteStoresOrIsIgnored : Obligations.RegisterWriteStoresOrIsIgnored := fun s v =>
  ⟨fun hb => ⟨whenIdle_of_idle hb fun s => .next { s with width := v },
      whenIdle_of_idle hb fun s => .next { s with height := v },
      whenIdle_of_idle hb fun s => .next { s with msgLen := v },
      whenIdle_of_idle hb fun s => .next { s with opa := v },
      whenIdle_of_idle hb fun s => .next { s with opb := v }, rfl⟩,
    fun hb n => regWrite_busy hb n v, fun _ hn => regWrite_ignored hn v s⟩

/-- Only a write to CMD can touch STATUS (R191). -/
theorem regWrite_status {n : RegNum} {v : Word} {s t : State} (h : regWrite n v s = .next t) :
    (n = 0#4 ∧ dispatch v s = .next t) ∨ t.status = s.status := by
  unfold regWrite at h
  split at h
  case h_1 hn => exact .inl ⟨BitVec.eq_of_toNat_eq hn, h⟩
  case h_7 => cases h; exact .inr rfl
  all_goals
    rcases whenIdle_next h with ⟨-, rfl⟩ | ⟨-, hk⟩
    · exact .inr rfl
    · cases hk
      exact .inr rfl

end Sys2Proof.Machine
end

section
/-! PHASE (44_system.md R196): the rows of the transition table, one lemma for each kind of step. -/

namespace Sys2Proof.Machine

/-- A command changes PHASE only by a passed start check (42_encoder.md R151, 43_decoder.md R171). -/
theorem exec_phase_change {i : Instr} {s t : State} (h : exec i s = .next t)
    (hne : t.status.phase ≠ s.status.phase) :
    s.status.phase = .idle ∧
      ((i = .encode ∧ t.status.phase = .enc ∧ s.msgLen.toNat + 4 ≤ 2 ^ 32 - 1 ∧ s.msgLen.toNat + 4 ≤ cap s) ∨
        (i = .decode ∧ t.status.phase = .decHdr ∧ 4 ≤ cap s)) := by
  rcases exec_cases h with ⟨-, rfl⟩ | ⟨hb, hcases⟩
  · contradiction
  have hp : s.status.phase = .idle := (busy_eq_false_iff _).1 hb
  have hleaves : t.status.phase ≠ .idle := hp ▸ hne
  refine ⟨hp, ?_⟩
  rcases hcases with ⟨-, rfl⟩ | ⟨-, -, rfl⟩ | ⟨rfl, hfits, rfl⟩ | ⟨-, -, rfl⟩ | ⟨rfl, hcap, rfl⟩ |
    ⟨-, rfl⟩ | ⟨-, rfl⟩ | ⟨-, rfl⟩ | ⟨-, rfl⟩ | ⟨-, -, rfl⟩ | ⟨-, -, rfl⟩
  -- every other outcome ends the command, so it leaves the block idle
  any_goals exact (hleaves rfl).elim
  · exact .inl ⟨rfl, rfl, (capacity_fits_iff s).1 hfits⟩
  · exact .inr ⟨rfl, rfl, hcap⟩

/-- A CMD write changes PHASE only if its word is ENCODE's or DECODE's (R193). -/
theorem dispatch_phase_change {w : Word} {s t : State} (h : dispatch w s = .next t)
    (hne : t.status.phase ≠ s.status.phase) :
    s.status.phase = .idle ∧
      ((w = 0x00000001#32 ∧ t.status.phase = .enc ∧ s.msgLen.toNat + 4 ≤ 2 ^ 32 - 1 ∧
          s.msgLen.toNat + 4 ≤ cap s) ∨
        (w = 0x00000002#32 ∧ t.status.phase = .decHdr ∧ 4 ≤ cap s)) := by
  cases hd : decode w with
  | ok i =>
    rw [dispatch_of_decode hd] at h
    obtain rfl : w = encode i := decode_eq_ok_iff.1 hd
    obtain ⟨hp, ⟨rfl, henc⟩ | ⟨rfl, hdec⟩⟩ := exec_phase_change h hne
    · exact ⟨hp, .inl ⟨rfl, henc⟩⟩
    · exact ⟨hp, .inr ⟨rfl, hdec⟩⟩
  | error e =>
    rw [dispatch_illegal hd] at h
    rcases whenIdle_next h with ⟨-, rfl⟩ | ⟨hb, hk⟩
    · contradiction
    · cases hk
      exact absurd ((busy_eq_false_iff _).1 hb).symm hne

/-- The host changes PHASE only by starting a command or by a reset (70_reset_and_hazards.md R240). -/
theorem hostStep_phase_change {op : HostOp} {s t : State} (h : hostStep op s = .next t)
    (hne : t.status.phase ≠ s.status.phase) :
    (s.status.phase = .idle ∧ t.status.phase = .enc ∧ op = .wr 0#4 0x00000001#32 ∧
        s.msgLen.toNat + 4 ≤ 2 ^ 32 - 1 ∧ s.msgLen.toNat + 4 ≤ cap s) ∨
      (s.status.phase = .idle ∧ t.status.phase = .decHdr ∧ op = .wr 0#4 0x00000002#32 ∧ 4 ≤ cap s) ∨
      (t.status.phase = .idle ∧ op = .reset) := by
  cases op with
  | rd n => cases h; contradiction
  | wr n v =>
    rcases regWrite_status h with ⟨rfl, hd⟩ | hstatus
    · obtain ⟨hp, ⟨rfl, henc, hfits⟩ | ⟨rfl, hdec, hcap⟩⟩ := dispatch_phase_change hd hne
      · exact .inl ⟨hp, henc, rfl, hfits⟩
      · exact .inr (.inl ⟨hp, hdec, rfl, hcap⟩)
    · exact absurd (congrArg Status.phase hstatus) hne
  | pixRd x y => rw [hostPixRead_next h] at hne; contradiction
  | pixWr x y v => rw [hostPixWrite_next h] at hne; contradiction
  | msgRd a => rw [hostMsgRead_next h] at hne; contradiction
  | msgWr a v => rw [hostMsgWrite_next h] at hne; contradiction
  | reset => cases h; exact .inr (.inr ⟨rfl, rfl⟩)

/-- The sequencer changes PHASE only by a finish step of ENCODE or DECODE or by DECODE's check of the claimed length
(42_encoder.md R153, 43_decoder.md R173, R175). -/
theorem seqTurn_phase_change {s t : State} (h : seqTurn s = .next t) (hne : t.status.phase ≠ s.status.phase) :
    (s.status.phase = .enc ∧ t.status.phase = .idle ∧ s.idx = s.total ∧ t.status.err = .none) ∨
      (s.status.phase = .decHdr ∧ t.status.phase = .idle ∧ s.idx.toNat = 4 ∧ cap s < s.total.toNat ∧
        t.status.err = .outOfBounds) ∨
      (s.status.phase = .decHdr ∧ t.status.phase = .decBody ∧ s.idx.toNat = 4 ∧ s.total.toNat ≤ cap s) ∨
      (s.status.phase = .decBody ∧ t.status.phase = .idle ∧ s.total.toNat ≤ s.idx.toNat ∧ t.status.err = .none) := by
  rcases seqTurn_cases h with ⟨-, rfl⟩ | ⟨-, -, rfl⟩ | ⟨hp, hi, rfl⟩ | ⟨-, -, rfl⟩ | ⟨hp, hi, hc, rfl⟩ |
    ⟨hp, hi, hc, rfl⟩ | ⟨-, -, -, rfl⟩ | ⟨hp, hi, rfl⟩
  · contradiction
  · contradiction
  · exact .inl ⟨hp, rfl, BitVec.eq_of_toNat_eq hi, rfl⟩
  · contradiction
  · exact .inr (.inl ⟨hp, rfl, hi, hc, rfl⟩)
  · exact .inr (.inr (.inl ⟨hp, rfl, hi, hc⟩))
  · contradiction
  · exact .inr (.inr (.inr ⟨hp, rfl, hi, rfl⟩))

theorem waitPoll_status {s t : State} (h : waitPoll s = .next t) : t.status = s.status := by
  unfold waitPoll at h
  split at h <;> cases h <;> rfl

/-- Settles O14, by the agent that steps: the host has the first two rows and the last, the sequencer the four between
them, and a WAIT poll none. -/
theorem phaseChangesOnlyByTheTable : Obligations.PhaseChangesOnlyByTheTable := by
  intro s t _ ht hne
  rcases step_agent_cases ht with ⟨rest, hturn⟩ | ⟨op, rest, ha, hturn⟩ | ⟨rest, -, hturn⟩
  · rcases seqTurn_phase_change (s := setAgenda rest s) hturn hne with hrow | hrow | hrow | hrow
    · exact .inr (.inr (.inl hrow))
    · exact .inr (.inr (.inr (.inl hrow)))
    · exact .inr (.inr (.inr (.inr (.inl hrow))))
    · exact .inr (.inr (.inr (.inr (.inr (.inl hrow)))))
  · have hhead : s.agenda.head? = some (.host op) := by rw [ha, List.head?_cons]
    rcases hostStep_phase_change (s := setAgenda rest s) hturn hne with
      ⟨hp, henc, rfl, hfits⟩ | ⟨hp, hdec, rfl, hcap⟩ | ⟨hidle, rfl⟩
    · exact .inl ⟨hp, henc, hhead, hfits⟩
    · exact .inr (.inl ⟨hp, hdec, hhead, hcap⟩)
    · exact .inr (.inr (.inr (.inr (.inr (.inr ⟨hidle, hhead⟩)))))
  · exact absurd (congrArg Status.phase (waitPoll_status hturn)) hne

end Sys2Proof.Machine
end

section
/-! The host's reads and the sequencer (44_system.md R201): the read shows in the host's record alone, and the sequencer
does not read that record. -/

namespace Sys2Proof.Machine

theorem mapNext_eq_next {f : State → State} {r : Answer} {t : State} (h : mapNext f r = .next t) :
    ∃ s, r = .next s ∧ t = f s := by
  cases r with
  | next s => cases h; exact ⟨s, rfl, rfl⟩
  | fault | refused => cases h

/-- A run of two steps that ends has a state in between. -/
theorem steps_two_next {s t : State} (h : steps 2 s = .next t) : ∃ m, step s = .next m ∧ step m = .next t := by
  cases hs : step s with
  | next m => exact ⟨m, rfl, by rw [← steps_one, ← steps_succ hs, h]⟩
  | fault | refused => simp [steps, hs] at h

/-- A read of the host's that completes only adds to the host's record (20_memory.md R74, R84). -/
theorem hostStep_read_next {op : HostOp} (hop : (∃ n, op = .rd n) ∨ (∃ x y, op = .pixRd x y) ∨ ∃ a, op = .msgRd a)
    {s t : State} (h : hostStep op s = .next t) : ∃ v, t = recordSeen v s := by
  rcases hop with ⟨n, rfl⟩ | ⟨x, y, rfl⟩ | ⟨a, rfl⟩
  · cases h; exact ⟨_, rfl⟩
  · exact ⟨_, hostPixRead_next h⟩
  · exact ⟨_, hostMsgRead_next h⟩

/-- Settles O33: in both orders the sequencer takes the step it takes without the read, and the read adds to the host's
record. -/
theorem hostReadsCommuteWithTheSequencer : Obligations.HostReadsCommuteWithTheSequencer := by
  intro s t u rest op hop hread hseq
  obtain ⟨m, hm, ht⟩ := steps_two_next hread
  obtain ⟨v, rfl⟩ := hostStep_read_next hop (s := setAgenda (.seq :: rest) s) hm
  obtain ⟨s', hs', rfl⟩ := mapNext_eq_next ((seqTurn_heard rest [v] s).symm.trans ht)
  obtain ⟨n, hn, hu⟩ := steps_two_next hseq
  obtain ⟨s'', hs'', rfl⟩ := mapNext_eq_next ((seqTurn_setAgenda (.host op :: rest) s).symm.trans hn)
  obtain rfl : s' = s'' := Host.Outcome.next.inj (hs'.symm.trans hs'')
  obtain ⟨w, rfl⟩ := hostStep_read_next hop (s := setAgenda rest s') hu
  rfl

end Sys2Proof.Machine
end

section
/-! Completion (60_exceptions.md R215, 44_system.md R200): under the invariant the sequencer's turn answers a next state,
and so does every turn of the host that its duties allow. -/

namespace Sys2Proof.Machine

/-! ### The sequencer -/

/-- Settles O12, by the phase: its bounds on IDX leave one step enabled, and that step stays in the grid. -/
theorem sequencerNeverStops : Obligations.SequencerNeverStops := by
  intro s h
  cases hp : s.status.phase with
  | idle => exact ⟨s, seqTurn_idle hp⟩
  | enc =>
    obtain ⟨-, -, hle⟩ := (phaseInv_enc_iff hp).1 h.phase
    rcases hle.lt_or_eq with hi | hi
    · exact ⟨_, seqTurn_enc_process h hp hi⟩
    · exact ⟨_, seqTurn_enc_finish hp hi⟩
  | decHdr =>
    obtain ⟨-, hle, -⟩ := (phaseInv_decHdr_iff hp).1 h.phase
    rcases hle.lt_or_eq with hi | hi
    · exact ⟨_, seqTurn_decHdr_header h hp hi⟩
    · rcases Nat.lt_or_ge (cap s) s.total.toNat with hc | hc
      · exact ⟨_, seqTurn_decHdr_reject hp hi hc⟩
      · exact ⟨_, seqTurn_decHdr_accept hp hi hc⟩
  | decBody =>
    rcases Nat.lt_or_ge s.idx.toNat s.total.toNat with hi | hi
    · exact ⟨_, seqTurn_decBody_body h hp hi⟩
    · exact ⟨_, seqTurn_decBody_finish hp hi⟩

/-! ### The host -/

/-- Every command completes, in every state: while busy it is ignored, while idle each outcome of its check is a next
state (44_system.md R193, R195). -/
theorem exec_completes (i : Instr) (s : State) : ∃ t, exec i s = .next t := by
  cases hb : s.status.busy with
  | true => exact ⟨s, exec_busy hb i⟩
  | false =>
    cases i with
    | nop => exact ⟨_, exec_nop_idle hb⟩
    | encode =>
      cases hc : (tooLong s || tooBig s) with
      | true => exact ⟨_, exec_encode_exceeds hb hc⟩
      | false => exact ⟨_, exec_encode_fits hb hc⟩
    | decode =>
      rcases Nat.lt_or_ge (cap s) 4 with hc | hc
      · exact ⟨_, exec_decode_small hb hc⟩
      · exact ⟨_, exec_decode_fits hb hc⟩
    | pack => exact ⟨_, exec_pack_idle hb⟩
    | unpack => exact ⟨_, exec_unpack_idle hb⟩
    | embed => exact ⟨_, exec_embed_idle hb⟩
    | extract => exact ⟨_, exec_extract_idle hb⟩
    | coord =>
      rcases Nat.lt_or_ge s.opa.toNat (cap s) with hc | hc
      · exact ⟨_, exec_coord_inside hb hc⟩
      · exact ⟨_, exec_coord_outside hb hc⟩

theorem dispatch_completes (w : Word) (s : State) : ∃ t, dispatch w s = .next t := by
  cases hd : decode w with
  | ok i =>
    rw [dispatch_of_decode hd]
    exact exec_completes i s
  | error e =>
    rw [dispatch_illegal hd]
    cases hb : s.status.busy with
    | true => exact ⟨s, whenIdle_of_busy hb _⟩
    | false => exact ⟨_, illegalCommand_idle hb⟩

/-- Every register write completes, in every state and to every number (R191). -/
theorem regWrite_completes (n : RegNum) (v : Word) (s : State) : ∃ t, regWrite n v s = .next t := by
  cases hb : s.status.busy with
  | true => exact ⟨s, regWrite_busy hb n v⟩
  | false =>
    unfold regWrite
    split
    case h_1 => exact dispatch_completes v s
    case h_7 => exact ⟨s, rfl⟩
    all_goals exact ⟨_, whenIdle_of_idle hb _⟩

/-- The duties on the host's accesses to its memories are what those accesses ask for (20_memory.md R84). -/
theorem hostStep_completes {op : HostOp} {s : State} (h : turnAllowed s (.host op)) : ∃ t, hostStep op s = .next t := by
  cases op with
  | rd n => exact ⟨_, rfl⟩
  | wr n v => exact regWrite_completes n v s
  | pixRd x y =>
    obtain ⟨hp, hg⟩ := h
    exact ⟨_, hostPixRead_inGrid hp hg⟩
  | pixWr x y v => exact ⟨_, hostPixWrite_idle h x y v⟩
  | msgRd a => exact ⟨_, hostMsgRead_idle_or_enc h a⟩
  | msgWr a v => exact ⟨_, hostMsgWrite_idle h a v⟩
  | reset => exact ⟨_, rfl⟩

theorem waitPoll_completes (s : State) : ∃ t, waitPoll s = .next t := by
  unfold waitPoll
  split <;> exact ⟨_, rfl⟩

/-! ### Either agent -/

theorem runTurn_completes {u : Turn} {s : State} (h : Inv s) (hu : turnAllowed s u) : ∃ t, runTurn u s = .next t := by
  cases u with
  | host op => exact hostStep_completes hu
  | seq => exact sequencerNeverStops s h
  | wait => exact waitPoll_completes s

/-- The duties do not read the agenda. -/
theorem turnAllowed_setAgenda (as : List Turn) (s : State) (u : Turn) :
    turnAllowed (setAgenda as s) u ↔ turnAllowed s u := by
  cases u with
  | host op => cases op <;> rfl
  | seq | wait => rfl

theorem hostDutyKept_cons {s : State} {u : Turn} {rest : List Turn} (h : s.agenda = u :: rest) :
    hostDutyKept s ↔ turnAllowed s u := by
  rw [hostDutyKept, h]

/-- Settles O13: the coming turn is the sequencer's own or the first of the agenda, which the duties allow. -/
theorem dutifulStepsComplete : Obligations.DutifulStepsComplete := by
  intro s h hduty
  cases ha : s.agenda with
  | nil =>
    rw [step_nil ha]
    exact sequencerNeverStops s h
  | cons u rest =>
    rw [step_cons ha]
    have hu : turnAllowed s u := (hostDutyKept_cons ha).1 hduty
    exact runTurn_completes (setAgenda_inv h rest) ((turnAllowed_setAgenda rest s u).2 hu)

end Sys2Proof.Machine
end

section
/-! Error entry (60_exceptions.md R218, R219): a command or a step of the sequencer that ends with an error is `fail`. -/

namespace Sys2Proof.Machine

/-- A command that ends with an error is error entry: every other outcome of an idle block clears ERR. -/
theorem exec_err {i : Instr} {s t : State} (hb : s.status.busy = false) (h : exec i s = .next t)
    (herr : t.status.err ≠ .none) : ∃ e, t = fail e s := by
  rcases exec_cases h with ⟨hbusy, -⟩ | ⟨-, hcases⟩
  · exact absurd (hb.symm.trans hbusy) Bool.false_ne_true
  rcases hcases with ⟨-, rfl⟩ | ⟨-, -, rfl⟩ | ⟨-, -, rfl⟩ | ⟨-, -, rfl⟩ | ⟨-, -, rfl⟩ | ⟨-, rfl⟩ | ⟨-, rfl⟩ |
    ⟨-, rfl⟩ | ⟨-, rfl⟩ | ⟨-, -, rfl⟩ | ⟨-, -, rfl⟩
  -- `finish` and `start` write ERR = 0
  any_goals exact (herr rfl).elim
  -- the failed checks of ENCODE, DECODE and COORD
  · exact ⟨.capacityExceeded, rfl⟩
  · exact ⟨.outOfBounds, rfl⟩
  · exact ⟨.outOfBounds, rfl⟩

/-- The only error a step of the sequencer ends with is DECODE's rejection of the claimed length (43_decoder.md R173):
the other steps of a running command keep ERR, which is 0, or clear it. -/
theorem seqTurn_err {s t : State} (hb : s.status.busy = true) (hl : s.status.Legal) (h : seqTurn s = .next t)
    (herr : t.status.err ≠ .none) : t = fail .outOfBounds s := by
  obtain ⟨-, hzero⟩ := hl.1 hb
  rcases seqTurn_cases h with ⟨hp, -⟩ | ⟨-, -, rfl⟩ | ⟨-, -, rfl⟩ | ⟨-, -, rfl⟩ | ⟨-, -, -, rfl⟩ | ⟨-, -, -, rfl⟩ |
    ⟨-, -, -, rfl⟩ | ⟨-, -, rfl⟩
  · exact absurd hp ((busy_eq_true_iff _).1 hb)
  · exact absurd hzero herr
  · exact absurd rfl herr
  · exact absurd hzero herr
  · rfl
  · exact absurd rfl herr
  · exact absurd hzero herr
  · exact absurd rfl herr

/-- Settles O25: both kinds of step end with an error through `fail` alone, which writes STATUS. -/
theorem errorsWriteStatusOnly : Obligations.ErrorsWriteStatusOnly := by
  refine ⟨fun i s t hb h herr => ?_, fun s t hb hl h herr => ?_⟩
  · obtain ⟨e, rfl⟩ := exec_err hb h herr
    rfl
  · obtain rfl := seqTurn_err hb hl h herr
    rfl

end Sys2Proof.Machine
end

section
/-! The reset event (70_reset_and_hazards.md R240) as a turn of the host. -/

namespace Sys2Proof.Machine

/-- A host reset asks for no condition: the block may be idle or busy. -/
theorem step_hostReset {s : State} {rest : List Turn} (h : s.agenda = .host .reset :: rest) :
    step s = .next (resetEvent (setAgenda rest s)) := step_cons h

@[simp] theorem cleared_word : Status.cleared.word = 0#32 := by decide

/-- PHASE is IDLE after a reset, so nothing starts by itself. -/
theorem seqTurn_resetEvent (s : State) : seqTurn (resetEvent s) = .next (resetEvent s) := seqTurn_idle rfl

/-- Settles O7: the step is `resetEvent`, which keeps both memories, the bus and the agenda and writes `State.reset`'s
values to the rest; the sequencer is idle after it. -/
theorem resetEventClearsRegisters : Obligations.ResetEventClearsRegisters := by
  intro s rest h
  exact ⟨_, step_hostReset h, rfl, rfl, rfl, rfl, rfl, rfl, rfl, rfl, rfl, rfl, rfl, rfl, rfl,
    cleared_word, rfl, rfl, rfl, rfl, seqTurn_resetEvent _⟩

end Sys2Proof.Machine
end
